-- ==== Sys2Proof/Word.lean ====
section
/-!
DEFINITION. The word types of the dandy CORE (spec/00_scope.md R7, R8).
-/

namespace Sys2Proof

/-- A program-buffer element and an instruction byte: 8 bits, unsigned (R7). -/
abbrev Byte := BitVec 8

/-- A register's contents, the PC and REM: 32 bits (R7; the PC's width is the spec's decision D2, REM's is D7). -/
abbrev Word := BitVec 32

/-- The index of a general register, 0 to 31 (R10). -/
abbrev RegIdx := Fin 32

end Sys2Proof
end

