-- ==== Sys2Proof/Syntax.lean ====
section
/-!
DEFINITION. The instructions, one constructor per row of spec/opcode_table.json (spec/30_encoding.md R41, R45).

An operand is the BYTE the instruction carries at its place, or `none` where that byte lies beyond the end of the program
buffer: the spec lets a truncated instruction run, and faults only when one of its missing bytes is fetched (R46, R54, C8).
A register operand is the whole byte, 0 to 255: a value above 31 is a legal encoding that is fatal at execution (R12, R47).
Padding bytes, and the three bytes IGL does not fetch, are kept so that no bit of an encoding is lost.
-/

namespace Sys2Proof

/-- Byte `k` of an instruction, `k` = 1 to 3: `none` where `pc0 + k >= LEN` (R46). -/
abbrev OperandByte := Option Byte

/-- The instruction set: opcodes 0 to 17, HLT (255) and IGL (every other opcode byte), R45. -/
inductive Instr where
  /-- R56 `LOAD rD, imm`: format RI. -/
  | load (rD hi lo : OperandByte)
  /-- R58 `ADD rA, rB, rD`: format RRR. -/
  | add (rA rB rD : OperandByte)
  /-- R59 `SUB rA, rB, rD`: format RRR. -/
  | sub (rA rB rD : OperandByte)
  /-- R60 `MUL rA, rB, rD`: format RRR. -/
  | mul (rA rB rD : OperandByte)
  /-- R62 `DIV rA, rB, rD`: format RRR. -/
  | div (rA rB rD : OperandByte)
  /-- R64 `JMP r`: format R. -/
  | jmp (r p2 p3 : OperandByte)
  /-- R65 `JMPF r`: format R. -/
  | jmpf (r p2 p3 : OperandByte)
  /-- R66 `JMPB r`: format R. -/
  | jmpb (r p2 p3 : OperandByte)
  /-- R68 `EQ rA, rB`: format RR. -/
  | eq (rA rB p3 : OperandByte)
  /-- R69 `NEQ rA, rB`: format RR. -/
  | neq (rA rB p3 : OperandByte)
  /-- R70 `GT rA, rB`: format RR. -/
  | gt (rA rB p3 : OperandByte)
  /-- R71 `LT rA, rB`: format RR. -/
  | lt (rA rB p3 : OperandByte)
  /-- R72 `GTQ rA, rB`: format RR. -/
  | gtq (rA rB p3 : OperandByte)
  /-- R73 `LTQ rA, rB`: format RR. -/
  | ltq (rA rB p3 : OperandByte)
  /-- R74 `JEQ r`: format R. -/
  | jeq (r p2 p3 : OperandByte)
  /-- R75 `JNEQ r`: format R. -/
  | jneq (r p2 p3 : OperandByte)
  /-- R76 `INC r`: format R. -/
  | inc (r p2 p3 : OperandByte)
  /-- R77 `DEC r`: format R. -/
  | dec (r p2 p3 : OperandByte)
  /-- R78 `HLT`: format N. -/
  | hlt (p1 p2 p3 : OperandByte)
  /-- R79, the illegal instruction: format X, the opcode byte `op` any of 0x12 to 0xFE. -/
  | igl (op : Byte) (u1 u2 u3 : OperandByte)
deriving DecidableEq, Repr

/-- Bytes 1, 2 and 3 of an instruction, in address order (R40, R41). -/
def Instr.operandBytes : Instr → OperandByte × OperandByte × OperandByte
  | .load b1 b2 b3 | .add b1 b2 b3 | .sub b1 b2 b3 | .mul b1 b2 b3 | .div b1 b2 b3
  | .jmp b1 b2 b3 | .jmpf b1 b2 b3 | .jmpb b1 b2 b3
  | .eq b1 b2 b3 | .neq b1 b2 b3 | .gt b1 b2 b3 | .lt b1 b2 b3 | .gtq b1 b2 b3 | .ltq b1 b2 b3
  | .jeq b1 b2 b3 | .jneq b1 b2 b3 | .inc b1 b2 b3 | .dec b1 b2 b3
  | .hlt b1 b2 b3 | .igl _ b1 b2 b3 => (b1, b2, b3)

/-- All four bytes lie inside the program buffer (R40). -/
def Instr.complete (i : Instr) : Bool :=
  i.operandBytes.1.isSome && i.operandBytes.2.1.isSome && i.operandBytes.2.2.isSome

end Sys2Proof
end

