-- ==== Sys2Proof/WellFormed.lean ====
section
/-!
DEFINITION. The instructions that some bytes of a program buffer spell.
-/

namespace Sys2Proof

/-- The bytes of the buffer stand at addresses 0 to LEN-1 without a hole (R27), so a byte that is present has every
byte before it present. -/
def Instr.bytesInOrder (i : Instr) : Bool :=
  (i.operandBytes.2.1.isNone || i.operandBytes.1.isSome) && (i.operandBytes.2.2.isNone || i.operandBytes.2.1.isSome)

/-- The opcode byte of an illegal instruction is one the table assigns to no other row: 18 to 254 (R45, R47). -/
def Instr.illegalOpcode : Instr → Bool
  | .igl op _ _ _ => 18 ≤ op.toNat && op.toNat ≤ 254
  | _ => true

/-- An instruction that has an encoding. Register bytes above 31 are no ground to refuse: R47 makes them legal as an
encoding and fatal at execution. -/
def WellFormed (i : Instr) : Bool := i.bytesInOrder && i.illegalOpcode

end Sys2Proof
end

