-- ==== Sys2Proof/Decode.lean ====
section
/-!
DEFINITION. Decoding and encoding (spec/30_encoding.md R40 to R48, R55).
-/

namespace Sys2Proof

/-- The opcode map of R45: the opcode byte alone selects the instruction (R44), and every byte that the table does not
name is the illegal instruction (R47). The three operand bytes are handed on as they stand. -/
def assemble (op : Byte) (b1 b2 b3 : OperandByte) : Instr :=
  match op.toNat with
  | 0 => .load b1 b2 b3
  | 1 => .add b1 b2 b3
  | 2 => .sub b1 b2 b3
  | 3 => .mul b1 b2 b3
  | 4 => .div b1 b2 b3
  | 5 => .jmp b1 b2 b3
  | 6 => .jmpf b1 b2 b3
  | 7 => .jmpb b1 b2 b3
  | 8 => .eq b1 b2 b3
  | 9 => .neq b1 b2 b3
  | 10 => .gt b1 b2 b3
  | 11 => .lt b1 b2 b3
  | 12 => .gtq b1 b2 b3
  | 13 => .ltq b1 b2 b3
  | 14 => .jeq b1 b2 b3
  | 15 => .jneq b1 b2 b3
  | 16 => .inc b1 b2 b3
  | 17 => .dec b1 b2 b3
  | 255 => .hlt b1 b2 b3
  | _ => .igl op b1 b2 b3

/-- The instruction at the head of a list of bytes: the first is the opcode, the next three, as far as they are there,
the operand bytes (R40). No byte list but the empty one is refused: "no failure path" (R44). -/
def decode : List Byte → Option Instr
  | [] => none
  | op :: rest => some (assemble op rest[0]? rest[1]? rest[2]?)

/-- Byte 0 of an instruction, from the table of R45. -/
def opcodeByte : Instr → Byte
  | .load .. => 0x00
  | .add .. => 0x01
  | .sub .. => 0x02
  | .mul .. => 0x03
  | .div .. => 0x04
  | .jmp .. => 0x05
  | .jmpf .. => 0x06
  | .jmpb .. => 0x07
  | .eq .. => 0x08
  | .neq .. => 0x09
  | .gt .. => 0x0A
  | .lt .. => 0x0B
  | .gtq .. => 0x0C
  | .ltq .. => 0x0D
  | .jeq .. => 0x0E
  | .jneq .. => 0x0F
  | .inc .. => 0x10
  | .dec .. => 0x11
  | .hlt .. => 0xFF
  | .igl op _ _ _ => op

/-- The bytes of an instruction, lowest address first (R41, R49): four for a complete one, fewer for one that the end of
the buffer truncates. -/
def encode (i : Instr) : List Byte :=
  opcodeByte i ::
    (i.operandBytes.1.toList ++ i.operandBytes.2.1.toList ++ i.operandBytes.2.2.toList)

/-- The four bytes of the table's word `W`, lowest address first: byte 0 in `W[31:24]`, byte 3 in `W[7:0]` (R55).
Bits of `W` from `nbits` up are 0. DEDUCED: notes/assumptions/10.md. -/
def tableBytes (nbits w : Nat) : List Byte :=
  let word := w % 2 ^ nbits
  [BitVec.ofNat 8 (word / 2 ^ 24), BitVec.ofNat 8 (word / 2 ^ 16), BitVec.ofNat 8 (word / 2 ^ 8), BitVec.ofNat 8 word]

/-- The instruction the decoder reads from a word of spec/opcode_table.json. -/
def decodeTableWord (nbits w : Nat) : Option Instr := decode (tableBytes nbits w)

end Sys2Proof
end

