-- ==== Sys2Proof/Machine/State.lean ====
section
/-!
DEFINITION. The architectural state (spec/10_state.md, spec/20_memory.md R27) and its reset value
(spec/70_reset_and_hazards.md R92).
-/

namespace Sys2Proof.Machine

/-- The run state RUNSTATE (R20). The host reads it as a number, `RunState.code`. -/
inductive RunState where
  /-- RUNNING: the only state in which a step executes an instruction. -/
  | running
  /-- HALTED: after HLT or exhaustion, for good (R22). -/
  | halted
  /-- FAULTED: after a fatal condition, for good (R85, decisions D10, D11). -/
  | faulted
deriving DecidableEq, Repr

/-- FAULT_CAUSE (R21, R80). The host reads it as a number, `FaultCause.code`; the codes 8 to 255 are not used. -/
inductive FaultCause where
  /-- 0 NONE: no fault recorded. -/
  | noFault
  /-- 1 OPERAND_OUT_OF_BOUNDS: an operand or padding byte fetched at `pc0 + k >= LEN`. -/
  | operandOutOfBounds
  /-- 2 INVALID_REGISTER: a register operand byte greater than 31. -/
  | invalidRegister
  /-- 3 DIVIDE_BY_ZERO. -/
  | divideByZero
  /-- 4 ARITH_OVERFLOW: a signed result outside -2^31 to 2^31-1. -/
  | arithOverflow
  /-- 5 PC_UNDERFLOW: JMPB with an offset greater than `pc0 + 2`. -/
  | pcUnderflow
  /-- 6 NEGATIVE_JUMP_OPERAND: a negative register value used as a jump target or offset. -/
  | negativeJumpOperand
  /-- 7 PC_OVERFLOW: a JMPF target above 2^32-1. -/
  | pcOverflow
deriving DecidableEq, Repr

/-- The program buffer PROG (R27): cells (address, byte), addresses strictly rising. An address that is not listed
holds nothing (R34), so no entry can equal what an unlisted address reads as. -/
abbrev Memory := List Host.Cell

/-- The canonical form: the bytes of PROG stand "at addresses 0 to LEN-1" (R27), each once and in order. -/
abbrev Memory.wf (m : Memory) : Prop := m.map Prod.fst = List.range m.length

/-- The whole architectural state (the table at the head of spec/10_state.md; R23: nothing else). -/
structure State where
  /-- The general registers `x[0]` to `x[31]` (R10). -/
  x : Vector Word 32
  /-- The program counter (R14). -/
  pc : Word
  /-- The equal flag EQF (R18). -/
  eqf : Bool
  /-- The remainder register REM (R19). -/
  rem : Word
  /-- The run state RUNSTATE (R20). -/
  runState : RunState
  /-- The fault cause FAULT_CAUSE (R21). -/
  faultCause : FaultCause
  /-- The program buffer PROG (R27). -/
  prog : Memory
deriving DecidableEq, Repr

/-- The current length LEN of the program buffer (R27). -/
abbrev State.len (s : State) : Nat := s.prog.length

/-- Creation, `new()`, is the block's reset (R91, D23): every value is the one R92 states. -/
def State.reset : State where
  x := Vector.replicate 32 0
  pc := 0
  eqf := false
  rem := 0
  runState := .running
  faultCause := .noFault
  prog := []

/-- The reasons for a step to stop outside the architectural state: there are none. The spec describes what every fatal
condition does to the state (RUNSTATE and FAULT_CAUSE are written, R83), so the model takes it as a next state in which
the machine is FAULTED (notes/assumptions/1.md). -/
inductive Fault where
deriving DecidableEq, Repr

/-- The reasons for the model to give no meaning. -/
inductive Refusal where
  /-- Raised by an arm of `exec` for an instruction that has no meaning yet, and by nothing else; safe. No arm raises
  it: every instruction has its meaning. -/
  | notModelled (mnemonic : String)
deriving DecidableEq, Repr

/-- What one step answers. -/
abbrev StepOutcome := Host.Outcome State Fault Refusal

end Sys2Proof.Machine
end

