-- ==== Sys2Proof/Machine/Ops.lean ====
section
/-!
DEFINITION. The named operations over the program buffer, the registers and the run state.
-/

namespace Sys2Proof.Machine

/-! ### The program buffer -/

/-- The byte at an address, or nothing where no byte was appended (R27, R34). -/
def Memory.read (m : Memory) (addr : Nat) : Option Byte := m.lookup addr

/-- `PROG[LEN] <- b; LEN <- LEN + 1` (R29). -/
def Memory.append (m : Memory) (b : Byte) : Memory := m ++ [(m.length, b)]

/-- Zero bytes appended until LEN is at least `n`. Used by `withFetchWord` alone (notes/assumptions/5.md). -/
def Memory.padTo (m : Memory) (n : Nat) : Memory :=
  m ++ (List.range' m.length (n - m.length)).map (fun a => (a, 0))

/-- The buffer with `b` standing at `addr`. No instruction and no operation of the host overwrites a byte (R30): this
is used by `withFetchWord` alone, to say which program was loaded (notes/assumptions/5.md). -/
def Memory.place (m : Memory) (addr : Nat) (b : Byte) : Memory :=
  (m.padTo (addr + 1)).map (fun c => if c.1 = addr then (addr, b) else c)

/-- `bs` placed at `addr`, `addr + 1`, … -/
def Memory.placeAll (m : Memory) (addr : Nat) : List Byte → Memory
  | [] => m
  | b :: bs => (m.place addr b).placeAll (addr + 1) bs

/-- At most `n` bytes from `addr` on, in increasing address order (R31), as far as the buffer holds them. -/
def Memory.fetchBytes (m : Memory) : (n : Nat) → (addr : Nat) → List Byte
  | 0, _ => []
  | n + 1, addr =>
    match m.read addr with
    | none => []
    | some b => b :: m.fetchBytes n (addr + 1)

/-- The bytes of the instruction at the PC: byte `k` is `PROG[pc0 + k]`, `k` = 0 to 3 (R40). An empty list says that
`pc0 >= LEN`. -/
def State.fetchInstr (s : State) : List Byte := s.prog.fetchBytes 4 s.pc.toNat

/-! ### Registers -/

/-- `sint(w)`: a word read as a two's-complement signed integer (R8). -/
def sint (w : Word) : Int := w.toInt

/-- `word(n)` of an integer in the signed 32-bit range (R8). -/
def wordOf (n : Int) : Word := BitVec.ofInt 32 n

/-- `x[i]` (R8). -/
def State.reg (s : State) (i : RegIdx) : Word := s.x[i.val]

/-- `x[i] <- w` (R8). No register is hard-wired (R11). -/
def State.setReg (s : State) (i : RegIdx) (w : Word) : State := { s with x := s.x.set i.val w }

/-- `pc <- t`. -/
def State.setPc (s : State) (t : Word) : State := { s with pc := t }

/-- `pc <- pc0 + 4` (R40). In a state a step can execute from, `pc0 < LEN <= 2^31`, so nothing wraps (R17); elsewhere
the 32-bit sum wraps (notes/assumptions/7.md, DESIGN CHOICE). -/
def State.advance (s : State) : State := s.setPc (s.pc + 4)

/-- `REM <- w` (R62). -/
def State.setRem (s : State) (w : Word) : State := { s with rem := w }

/-- `EQF <- b` (R67). -/
def State.setEqf (s : State) (b : Bool) : State := { s with eqf := b }

/-- An exact integer result as a word, or the fatal condition ARITH_OVERFLOW when it lies outside -2^31 to 2^31-1
(R57, decision D4). -/
def narrow (n : Int) : Except FaultCause Word :=
  if n < -2 ^ 31 ∨ n > 2 ^ 31 - 1 then .error .arithOverflow else .ok (wordOf n)

/-! ### The run state -/

/-- `RUNSTATE <- HALTED` (R51, R78). -/
def State.halt (s : State) : State := { s with runState := .halted }

/-- Taking a fault, `raise Fatal(c)`: RUNSTATE and FAULT_CAUSE are written and nothing else, so the PC stays at the
faulting instruction (R53, R83, decision D10). There is no handler and no return from a fault (R85): no operation
stands beside this one. -/
def State.raiseFatal (s : State) (c : FaultCause) : State := { s with runState := .faulted, faultCause := c }

/-- The end of an instruction's rule that began in `s` (R53): either all its writes are committed together, or a fatal
condition is taken and none of them is. -/
def State.finish (s : State) : Except FaultCause State → StepOutcome
  | .ok t => .next t
  | .error c => .next (s.raiseFatal c)

/-- The execution cycle of R51 around `run`, the rule of the decoded instruction: a halted or faulted machine changes
nothing; a PC at or beyond LEN is exhaustion and halts; otherwise the instruction at the PC runs. -/
def executionCycle (run : Instr → State → StepOutcome) (s : State) : StepOutcome :=
  match s.runState with
  | .halted => .next s
  | .faulted => .next s
  | .running =>
    match decode s.fetchInstr with
    | none => .next s.halt
    | some i => run i s

/-- The state with the bytes `bs` loaded where the next step fetches, and RUNNING so that it does fetch. -/
def State.loadAtPc (s : State) (bs : List Byte) : State :=
  { s with prog := s.prog.placeAll s.pc.toNat bs, runState := .running, faultCause := .noFault }

end Sys2Proof.Machine
end

