-- ==== Sys2Proof/Machine/Operands.lean ====
section
/-!
DEFINITION. The operand forms (spec/10_state.md R12, spec/30_encoding.md R41 to R46). An instruction calls these in
increasing byte order, one call per byte it fetches, before it computes anything (R46, R54).
-/

namespace Sys2Proof.Machine

/-- `Fetch(k)`, given byte `k` as the instruction carries it: fatal when it lies beyond the buffer (R28, R46). -/
def fetch : OperandByte → Except FaultCause Byte
  | none => .error .operandOutOfBounds
  | some b => .ok b

/-- The register a register byte names; a byte above 31 is fatal (R12). -/
def regIndex (b : Byte) : Except FaultCause RegIdx :=
  if h : b.toNat < 32 then .ok ⟨b.toNat, h⟩ else .error .invalidRegister

/-- `RegOperand(k)` (R46). -/
def regOperand (o : OperandByte) : Except FaultCause RegIdx :=
  match fetch o with
  | .error c => .error c
  | .ok b => regIndex b

/-- `Pad(k)`: fetched, the value discarded (R43, R46, decision D8). -/
def pad (o : OperandByte) : Except FaultCause Unit :=
  match fetch o with
  | .error c => .error c
  | .ok _ => .ok ()

/-- LOAD's immediate, `zext_32(hi ++ lo)`, the high byte first (R31, R42, C1). -/
def imm16 (hi lo : Byte) : Word := (hi ++ lo).zeroExtend 32

/-- The operands of format RRR (R41). -/
def operandsRRR (rA rB rD : OperandByte) : Except FaultCause (RegIdx × RegIdx × RegIdx) := do
  let a ← regOperand rA
  let b ← regOperand rB
  let d ← regOperand rD
  pure (a, b, d)

/-- The operands of format RR (R41). -/
def operandsRR (rA rB p3 : OperandByte) : Except FaultCause (RegIdx × RegIdx) := do
  let a ← regOperand rA
  let b ← regOperand rB
  pad p3
  pure (a, b)

/-- The operand of format R where the padding is consumed (R41). -/
def operandsRPP (r p2 p3 : OperandByte) : Except FaultCause RegIdx := do
  let i ← regOperand r
  pad p2
  pad p3
  pure i

/-- A register value used as a jump target or offset: a negative one is fatal (R63, decision D12). -/
def jumpOperand (w : Word) : Except FaultCause Nat :=
  if sint w < 0 then .error .negativeJumpOperand else .ok (sint w).toNat

end Sys2Proof.Machine
end

