-- ==== Sys2Proof/Machine/Arithmetic.lean ====
section
/-!
DEFINITION. Integer arithmetic (spec/42_arithmetic.md).
-/

namespace Sys2Proof.Machine

/-- What ADD, SUB and MUL share: the exact result of `f` on the signed sources, narrowed, to the destination (R57). -/
def exactArith (f : Int → Int → Int) (rA rB rD : OperandByte) (s : State) : StepOutcome :=
  s.finish do
    let (a, b, d) ← operandsRRR rA rB rD
    let w ← narrow (f (sint (s.reg a)) (sint (s.reg b)))
    pure (s.setReg d w).advance

/-- R58 ADD. -/
def execAdd (rA rB rD : OperandByte) (s : State) : StepOutcome := exactArith (fun a b => a + b) rA rB rD s

/-- R59 SUB: source 1 minus source 2. -/
def execSub (rA rB rD : OperandByte) (s : State) : StepOutcome := exactArith (fun a b => a - b) rA rB rD s

/-- R60 MUL. -/
def execMul (rA rB rD : OperandByte) (s : State) : StepOutcome := exactArith (fun a b => a * b) rA rB rD s

/-- The quotient and the remainder of `n / m` (R61, decision D5): the quotient rounded toward zero, the remainder
`n - q * m`. A zero divisor is fatal (R62), and so is a quotient outside the signed 32-bit range, which is -2^31 / -1
alone (decision D6). -/
def divide (n m : Int) : Except FaultCause (Word × Word) :=
  if m = 0 then .error .divideByZero
  else
    match narrow (n.tdiv m) with
    | .error c => .error c
    | .ok q => .ok (q, wordOf (n - n.tdiv m * m))

/-- R62 DIV: the quotient to the destination, the remainder to REM. -/
def execDiv (rA rB rD : OperandByte) (s : State) : StepOutcome :=
  s.finish do
    let (a, b, d) ← operandsRRR rA rB rD
    let (q, r) ← divide (sint (s.reg a)) (sint (s.reg b))
    pure ((s.setReg d q).setRem r).advance

end Sys2Proof.Machine
end

