-- ==== Sys2Proof/Machine/Flags.lean ====
section
/-!
DEFINITION. The relations whose truth a comparison writes to the equal flag, on signed values (spec/44_compare.md R67
to R73).
-/

namespace Sys2Proof.Machine

/-- EQ (R68). -/
def relEq (a b : Int) : Bool := decide (a = b)

/-- NEQ (R69). -/
def relNeq (a b : Int) : Bool := decide (a ≠ b)

/-- GT (R70). -/
def relGt (a b : Int) : Bool := decide (a > b)

/-- LT (R71). -/
def relLt (a b : Int) : Bool := decide (a < b)

/-- GTQ (R72). -/
def relGtq (a b : Int) : Bool := decide (a ≥ b)

/-- LTQ (R73). -/
def relLtq (a b : Int) : Bool := decide (a ≤ b)

end Sys2Proof.Machine
end

