-- ==== Sys2Proof/Machine/Compare.lean ====
section
/-!
DEFINITION. Comparisons (spec/44_compare.md).
-/

namespace Sys2Proof.Machine

/-- The common rule R67: the truth of `rel` on the signed values goes to EQF. -/
def compareRegs (rel : Int → Int → Bool) (rA rB p3 : OperandByte) (s : State) : StepOutcome :=
  s.finish do
    let (a, b) ← operandsRR rA rB p3
    pure (s.setEqf (rel (sint (s.reg a)) (sint (s.reg b)))).advance

/-- R68 EQ. -/
def execEq (rA rB p3 : OperandByte) (s : State) : StepOutcome := compareRegs relEq rA rB p3 s

/-- R69 NEQ. -/
def execNeq (rA rB p3 : OperandByte) (s : State) : StepOutcome := compareRegs relNeq rA rB p3 s

/-- R70 GT. -/
def execGt (rA rB p3 : OperandByte) (s : State) : StepOutcome := compareRegs relGt rA rB p3 s

/-- R71 LT. -/
def execLt (rA rB p3 : OperandByte) (s : State) : StepOutcome := compareRegs relLt rA rB p3 s

/-- R72 GTQ. -/
def execGtq (rA rB p3 : OperandByte) (s : State) : StepOutcome := compareRegs relGtq rA rB p3 s

/-- R73 LTQ. -/
def execLtq (rA rB p3 : OperandByte) (s : State) : StepOutcome := compareRegs relLtq rA rB p3 s

end Sys2Proof.Machine
end

