-- ==== Sys2Proof/Machine/ConditionalJump.lean ====
section
/-!
DEFINITION. Conditional jumps (spec/45_conditional_jump.md).
-/

namespace Sys2Proof.Machine

/-- What JEQ and JNEQ share (R74, R75): the register byte is checked in either case (decision D17); a taken jump does
not consume its padding and examines the register's value, an untaken one the other way round. -/
def conditionalJump (taken : Bool) (r p2 p3 : OperandByte) (s : State) : StepOutcome :=
  s.finish do
    let i ← regOperand r
    if taken then
      let t ← jumpOperand (s.reg i)
      pure (s.setPc (BitVec.ofNat 32 t))
    else
      pad p2
      pad p3
      pure s.advance

/-- R74 JEQ: taken when EQF is set. -/
def execJeq (r p2 p3 : OperandByte) (s : State) : StepOutcome := conditionalJump s.eqf r p2 p3 s

/-- R75 JNEQ: taken when EQF is clear. -/
def execJneq (r p2 p3 : OperandByte) (s : State) : StepOutcome := conditionalJump (!s.eqf) r p2 p3 s

end Sys2Proof.Machine
end

