-- ==== Sys2Proof/Machine/HaltIllegal.lean ====
section
/-!
DEFINITION. Halt and the illegal instruction (spec/47_halt_illegal.md).
-/

namespace Sys2Proof.Machine

/-- R78 HLT: its padding is fetched, the PC advances past it (decision D14), the machine halts. -/
def execHlt (p1 p2 p3 : OperandByte) (s : State) : StepOutcome :=
  s.finish do
    pad p1
    pad p2
    pad p3
    pure s.advance.halt

/-- R79 IGL: a no-op of four bytes that fetches none of its operand bytes, so it cannot fault (C2). -/
def execIgl (_op : Byte) (_u1 _u2 _u3 : OperandByte) (s : State) : StepOutcome :=
  s.finish (.ok s.advance)

end Sys2Proof.Machine
end

