-- ==== Sys2Proof/Machine/Increment.lean ====
section
/-!
DEFINITION. Increment and decrement (spec/46_increment.md).
-/

namespace Sys2Proof.Machine

/-- What INC and DEC share: `k` is added to one register, exactly, or the overflow is fatal (R57, R76, R77). -/
def addToReg (k : Int) (r p2 p3 : OperandByte) (s : State) : StepOutcome :=
  s.finish do
    let i ← operandsRPP r p2 p3
    let w ← narrow (sint (s.reg i) + k)
    pure (s.setReg i w).advance

/-- R76 INC. -/
def execInc (r p2 p3 : OperandByte) (s : State) : StepOutcome := addToReg 1 r p2 p3 s

/-- R77 DEC. -/
def execDec (r p2 p3 : OperandByte) (s : State) : StepOutcome := addToReg (-1) r p2 p3 s

end Sys2Proof.Machine
end

