-- ==== Sys2Proof/Machine/Jump.lean ====
section
/-!
DEFINITION. Unconditional jumps (spec/43_jump.md). A jump fetches only its register byte (R63): its padding is not
fetched, so a missing padding byte is no fault.
-/

namespace Sys2Proof.Machine

/-- R64 JMP. -/
def execJmp (r _p2 _p3 : OperandByte) (s : State) : StepOutcome :=
  s.finish do
    let i ← regOperand r
    let t ← jumpOperand (s.reg i)
    pure (s.setPc (BitVec.ofNat 32 t))

/-- The target of JMPF: the offset counts from `pc0 + 2` (R65); above 2^32-1 it is fatal (decision D13). -/
def forwardTarget (pc0 : Word) (v : Nat) : Except FaultCause Word :=
  if pc0.toNat + 2 + v > 2 ^ 32 - 1 then .error .pcOverflow else .ok (BitVec.ofNat 32 (pc0.toNat + 2 + v))

/-- R65 JMPF. -/
def execJmpf (r _p2 _p3 : OperandByte) (s : State) : StepOutcome :=
  s.finish do
    let i ← regOperand r
    let v ← jumpOperand (s.reg i)
    let t ← forwardTarget s.pc v
    pure (s.setPc t)

/-- The target of JMPB: the offset counts from `pc0 + 2`; an offset beyond it is fatal (R66). -/
def backwardTarget (pc0 : Word) (v : Nat) : Except FaultCause Word :=
  if v > pc0.toNat + 2 then .error .pcUnderflow else .ok (BitVec.ofNat 32 (pc0.toNat + 2 - v))

/-- R66 JMPB. -/
def execJmpb (r _p2 _p3 : OperandByte) (s : State) : StepOutcome :=
  s.finish do
    let i ← regOperand r
    let v ← jumpOperand (s.reg i)
    let t ← backwardTarget s.pc v
    pure (s.setPc t)

end Sys2Proof.Machine
end

