-- ==== Sys2Proof/Machine/Load.lean ====
section
/-!
DEFINITION. Load immediate (spec/41_load.md).
-/

namespace Sys2Proof.Machine

/-- R56 LOAD. -/
def execLoad (rD hi lo : OperandByte) (s : State) : StepOutcome :=
  s.finish do
    let d ← regOperand rD
    let h ← fetch hi
    let l ← fetch lo
    pure (s.setReg d (imm16 h l)).advance

end Sys2Proof.Machine
end

