-- ==== Sys2Proof/Machine/Dispatch.lean ====
section
/-!
DEFINITION. The dispatch of a decoded instruction to its meaning (spec/30_encoding.md R45), one arm per constructor.
-/

namespace Sys2Proof.Machine

/-- "perform the rule of op" (R51). -/
def exec (i : Instr) (s : State) : Host.Outcome State Fault Refusal :=
  match i with
  | .load rD hi lo => Sys2Proof.Machine.execLoad rD hi lo s
  | .add rA rB rD => Sys2Proof.Machine.execAdd rA rB rD s
  | .sub rA rB rD => Sys2Proof.Machine.execSub rA rB rD s
  | .mul rA rB rD => Sys2Proof.Machine.execMul rA rB rD s
  | .div rA rB rD => Sys2Proof.Machine.execDiv rA rB rD s
  | .jmp r p2 p3 => Sys2Proof.Machine.execJmp r p2 p3 s
  | .jmpf r p2 p3 => Sys2Proof.Machine.execJmpf r p2 p3 s
  | .jmpb r p2 p3 => Sys2Proof.Machine.execJmpb r p2 p3 s
  | .eq rA rB p3 => Sys2Proof.Machine.execEq rA rB p3 s
  | .neq rA rB p3 => Sys2Proof.Machine.execNeq rA rB p3 s
  | .gt rA rB p3 => Sys2Proof.Machine.execGt rA rB p3 s
  | .lt rA rB p3 => Sys2Proof.Machine.execLt rA rB p3 s
  | .gtq rA rB p3 => Sys2Proof.Machine.execGtq rA rB p3 s
  | .ltq rA rB p3 => Sys2Proof.Machine.execLtq rA rB p3 s
  | .jeq r p2 p3 => Sys2Proof.Machine.execJeq r p2 p3 s
  | .jneq r p2 p3 => Sys2Proof.Machine.execJneq r p2 p3 s
  | .inc r p2 p3 => Sys2Proof.Machine.execInc r p2 p3 s
  | .dec r p2 p3 => Sys2Proof.Machine.execDec r p2 p3 s
  | .hlt p1 p2 p3 => Sys2Proof.Machine.execHlt p1 p2 p3 s
  | .igl op u1 u2 u3 => Sys2Proof.Machine.execIgl op u1 u2 u3 s

end Sys2Proof.Machine
end

