-- ==== Sys2Proof/Machine/Step.lean ====
section
/-!
DEFINITION. One step of the machine (spec/30_encoding.md R51), and the loading of one word for it to fetch.
-/

namespace Sys2Proof.Machine

/-- `step()` (R51), as a change of state. The value it returns to the host is read off the state after it
(`State.result`, Machine/HostInterface.lean). -/
def step (s : State) : Host.Outcome State Fault Refusal := executionCycle exec s

/-- `s` with the table's word `w` loaded at the PC, and RUNNING: the next step fetches and runs it
(notes/assumptions/5.md). -/
def State.withFetchWord (s : State) (nbits w : Nat) : State := s.loadAtPc (tableBytes nbits w)

end Sys2Proof.Machine
end

