-- ==== Sys2Proof/Config.lean ====
section
/-!
DEFINITION. What an implementation fixes and the spec leaves open: the capacity of the program buffer
(spec/00_scope.md R7, spec/20_memory.md R27, decision D3).
-/

namespace Sys2Proof

/-- PROG_CAPACITY minus one. A constant with no body: the spec leaves it OPEN (D3), so nothing can be proved of it
but its range (notes/assumptions/2.md, safe). -/
opaque Config.capacityLessOne : Fin (2 ^ 31)

/-- PROG_CAPACITY, "an integer with 1 <= PROG_CAPACITY <= 2^31" (R7, R27). -/
def Config.progCapacity : Nat := Config.capacityLessOne.val + 1

end Sys2Proof
end

