-- ==== Sys2Proof/Machine/HostInterface.lean ====
section
/-!
DEFINITION. The operations the block exposes to its host (spec/10_state.md R24 to R26): create, append-byte,
single-step, run-to-halt and read-only inspection. Each is one atomic transition (R36).
-/

namespace Sys2Proof.Machine

/-- What `append_byte` returns (R29). -/
inductive AppendResult where
  /-- OK: the byte was appended. -/
  | ok
  /-- BUFFER_FULL: nothing changed. -/
  | bufferFull
deriving DecidableEq, Repr

/-- What `step()` and `run()` return (R24, R51). -/
inductive StepResult where
  /-- `Running`, the source's false. -/
  | running
  /-- `Halted`, the source's true. -/
  | halted
  /-- `Fatal(cause)`, the source's error signal. -/
  | fatal (cause : FaultCause)
deriving DecidableEq, Repr

/-- `new()` (R91). -/
def hostNew : State := State.reset

/-- `append_byte(b)` on a machine of capacity `cap` (R29). -/
def State.appendByteWithin (cap : Nat) (b : Byte) (s : State) : AppendResult × State :=
  if s.len = cap then (.bufferFull, s) else (.ok, { s with prog := s.prog.append b })

/-- `append_byte(b)` (R29). -/
def State.appendByte (b : Byte) (s : State) : AppendResult × State := s.appendByteWithin Config.progCapacity b

/-- The value a step that ended in this state returned (R51): `Running` if the machine is still RUNNING, `Halted` if it
is HALTED, `Fatal(FAULT_CAUSE)` if it is FAULTED. DEDUCED: notes/assumptions/11.md. -/
def State.result (s : State) : StepResult :=
  match s.runState with
  | .running => .running
  | .halted => .halted
  | .faulted => .fatal s.faultCause

/-- The state after `step()`. The machine's step answers a next state in every state, so no other case arises. -/
def State.afterStep (s : State) : State :=
  match step s with
  | .next t => t
  | .fault _ => s
  | .refused _ => s

/-- The state after `n` calls of `step()`. -/
def State.afterSteps : (n : Nat) → State → State
  | 0, s => s
  | n + 1, s => s.afterStep.afterSteps n

/-- `run()` for at most `fuel` steps (R52): what it returned and the state it left, or nothing when the fuel ran out
before the machine stopped, which is neither a halt nor a fault (R99). -/
def State.runFor : (fuel : Nat) → State → Option (StepResult × State)
  | 0, _ => none
  | n + 1, s =>
    match s.afterStep.result with
    | .running => s.afterStep.runFor n
    | .halted => some (.halted, s.afterStep)
    | .fatal c => some (.fatal c, s.afterStep)

/-- RUNSTATE as the host reads it, 2 bits: the value 3 never occurs (R20, D25). -/
def RunState.code : RunState → BitVec 2
  | .running => 0
  | .halted => 1
  | .faulted => 2

/-- FAULT_CAUSE as the host reads it, 8 bits (R21, R80, D15). -/
def FaultCause.code : FaultCause → BitVec 8
  | .noFault => 0
  | .operandOutOfBounds => 1
  | .invalidRegister => 2
  | .divideByZero => 3
  | .arithOverflow => 4
  | .pcUnderflow => 5
  | .negativeJumpOperand => 6
  | .pcOverflow => 7

/-- Read registers (R24, R25). -/
def State.readRegister (s : State) (i : RegIdx) : Word := s.reg i

/-- Read remainder (R24, R25). -/
def State.readRemainder (s : State) : Word := s.rem

/-- Read equal flag (R24, R25). -/
def State.readEqualFlag (s : State) : Bool := s.eqf

/-- Read PC (R25, D16). -/
def State.readPc (s : State) : Word := s.pc

/-- Read run state (R25, D16). -/
def State.readRunState (s : State) : BitVec 2 := s.runState.code

/-- Read fault cause (R25, D16). -/
def State.readFaultCause (s : State) : BitVec 8 := s.faultCause.code

/-- Read program buffer, `PROG[0..LEN-1]` (R25, D16). -/
def State.readProgram (s : State) : List Byte := s.prog.map Prod.snd

/-- The operations of the host on a machine that exists (R24). `run()` is a sequence of `step()` (R52), and `new()`
makes another machine. -/
inductive HostOp where
  /-- `append_byte(b)`. -/
  | appendByte (b : Byte)
  /-- `step()`. -/
  | step
  /-- Any of the reads: inspection "changes nothing" (R25). -/
  | inspect
deriving DecidableEq, Repr

/-- The state after one operation of the host. -/
def State.afterOp (s : State) : HostOp → State
  | .appendByte b => (s.appendByte b).2
  | .step => s.afterStep
  | .inspect => s

/-- The state after a sequence of operations of the host, each seeing every one before it (R36). -/
def State.afterOps (s : State) : List HostOp → State
  | [] => s
  | op :: ops => (s.afterOp op).afterOps ops

end Sys2Proof.Machine
end

