-- ==== Sys2Proof/Safety.lean ====
section
/-!
DEFINITION. The terms statements about the machine are made in: the invariant of every machine a host can have, and
which registers an instruction reads and writes.
-/

namespace Sys2Proof.Machine

/-- What holds of every machine from creation on: the program buffer is in its canonical form (R27), it is no longer
than its capacity (R27), and FAULT_CAUSE is NONE exactly when the machine is not FAULTED (R21). -/
structure State.Inv (s : State) : Prop where
  progWf : s.prog.wf
  lenLe : s.len ≤ Config.progCapacity
  causeIff : s.faultCause = .noFault ↔ s.runState ≠ .faulted

/-- The register byte that names register `i` (R12). -/
def regByte (i : RegIdx) : OperandByte := some (BitVec.ofNat 8 i.val)

/-- The register operands an instruction reads, by the table of R13 (JEQ and JNEQ: when the jump is taken). -/
def registersRead (i : Instr) (eqf : Bool) : List OperandByte :=
  match i with
  | .load .. => []
  | .add rA rB _ | .sub rA rB _ | .mul rA rB _ | .div rA rB _ => [rA, rB]
  | .jmp r _ _ | .jmpf r _ _ | .jmpb r _ _ => [r]
  | .eq rA rB _ | .neq rA rB _ | .gt rA rB _ | .lt rA rB _ | .gtq rA rB _ | .ltq rA rB _ => [rA, rB]
  | .jeq r _ _ => if eqf then [r] else []
  | .jneq r _ _ => if eqf then [] else [r]
  | .inc r _ _ | .dec r _ _ => [r]
  | .hlt .. | .igl .. => []

/-- The register operand an instruction writes, by the table of R13. -/
def registersWritten : Instr → List OperandByte
  | .load rD _ _ => [rD]
  | .add _ _ rD | .sub _ _ rD | .mul _ _ rD | .div _ _ rD => [rD]
  | .inc r _ _ | .dec r _ _ => [r]
  | .jmp .. | .jmpf .. | .jmpb .. | .jeq .. | .jneq .. => []
  | .eq .. | .neq .. | .gt .. | .lt .. | .gtq .. | .ltq .. => []
  | .hlt .. | .igl .. => []

/-- The operand bytes an instruction fetches, in byte order, each with whether it is a register operand (R41, R43; JEQ and
JNEQ: by whether the jump is taken, R74, R75). -/
def operandsFetched (i : Instr) (eqf : Bool) : List (Bool × OperandByte) :=
  match i with
  | .load rD hi lo => [(true, rD), (false, hi), (false, lo)]
  | .add rA rB rD | .sub rA rB rD | .mul rA rB rD | .div rA rB rD => [(true, rA), (true, rB), (true, rD)]
  | .jmp r _ _ | .jmpf r _ _ | .jmpb r _ _ => [(true, r)]
  | .eq rA rB p3 | .neq rA rB p3 | .gt rA rB p3 | .lt rA rB p3 | .gtq rA rB p3 | .ltq rA rB p3 =>
    [(true, rA), (true, rB), (false, p3)]
  | .jeq r p2 p3 => if eqf then [(true, r)] else [(true, r), (false, p2), (false, p3)]
  | .jneq r p2 p3 => if eqf then [(true, r), (false, p2), (false, p3)] else [(true, r)]
  | .inc r p2 p3 | .dec r p2 p3 => [(true, r), (false, p2), (false, p3)]
  | .hlt p1 p2 p3 => [(false, p1), (false, p2), (false, p3)]
  | .igl .. => []

/-- The first operand fault in the order of R54 (decision D9): each byte's bounds check, then, for a register operand,
its index check, before the next byte. -/
def firstOperandFault : List (Bool × OperandByte) → Option FaultCause
  | [] => none
  | (_, none) :: _ => some .operandOutOfBounds
  | (isReg, some b) :: rest => if isReg && b.toNat > 31 then some .invalidRegister else firstOperandFault rest

/-- The column "raised by" of the table of R80 (JEQ and JNEQ raise NEGATIVE_JUMP_OPERAND when taken). -/
def raisedBy (c : FaultCause) (i : Instr) (eqf : Bool) : Bool :=
  match c, i with
  | .noFault, _ => false
  | .operandOutOfBounds, .igl .. => false
  | .operandOutOfBounds, _ => true
  | .invalidRegister, .hlt .. | .invalidRegister, .igl .. => false
  | .invalidRegister, _ => true
  | .divideByZero, .div .. => true
  | .divideByZero, _ => false
  | .arithOverflow, .add .. | .arithOverflow, .sub .. | .arithOverflow, .mul .. => true
  | .arithOverflow, .div .. | .arithOverflow, .inc .. | .arithOverflow, .dec .. => true
  | .arithOverflow, _ => false
  | .pcUnderflow, .jmpb .. => true
  | .pcUnderflow, _ => false
  | .negativeJumpOperand, .jmp .. | .negativeJumpOperand, .jmpf .. | .negativeJumpOperand, .jmpb .. => true
  | .negativeJumpOperand, .jeq .. => eqf
  | .negativeJumpOperand, .jneq .. => !eqf
  | .negativeJumpOperand, _ => false
  | .pcOverflow, .jmpf .. => true
  | .pcOverflow, _ => false

/-- An exact integer that a register can hold: -2^31 to 2^31-1 (R57). -/
def inWordRange (n : Int) : Prop := -2 ^ 31 ≤ n ∧ n ≤ 2 ^ 31 - 1

/-- The six comparisons (R67). -/
def isComparison : Instr → Bool
  | .eq .. | .neq .. | .gt .. | .lt .. | .gtq .. | .ltq .. => true
  | .load .. | .add .. | .sub .. | .mul .. | .div .. => false
  | .jmp .. | .jmpf .. | .jmpb .. | .jeq .. | .jneq .. => false
  | .inc .. | .dec .. | .hlt .. | .igl .. => false

/-- The conditional jumps (R74, R75). -/
def isConditionalJump : Instr → Bool
  | .jeq .. | .jneq .. => true
  | .load .. | .add .. | .sub .. | .mul .. | .div .. | .jmp .. | .jmpf .. | .jmpb .. => false
  | .eq .. | .neq .. | .gt .. | .lt .. | .gtq .. | .ltq .. => false
  | .inc .. | .dec .. | .hlt .. | .igl .. => false

/-- The jumps, conditional and not (R63). -/
def isJump : Instr → Bool
  | .jmp .. | .jmpf .. | .jmpb .. | .jeq .. | .jneq .. => true
  | .load .. | .add .. | .sub .. | .mul .. | .div .. => false
  | .eq .. | .neq .. | .gt .. | .lt .. | .gtq .. | .ltq .. => false
  | .inc .. | .dec .. | .hlt .. | .igl .. => false

end Sys2Proof.Machine
end

