-- ==== Sys2Proof/Certificates/Slice0/Obligations.lean ====
section
/-!
DEFINITION. The statements for the provers. Each docstring names the rules of spec/ it rests on; where a clause rests on
one of the spec's own decisions (D<n>, spec/92_eei_decisions.md) or on a choice of this model (notes/assumptions), it says so.
-/

open Sys2Proof Sys2Proof.Machine

/-! ### Encoding -/

/-- Every well-formed instruction, a truncated one included, is what its own bytes decode to, and a complete one whatever
bytes follow it (R40, R41, R44, R45). -/
def Obligations.DecodeOfEncodeIsTheInstruction : Prop :=
  ∀ (i : Instr), WellFormed i = true →
    decode (encode i) = some i ∧ (i.complete = true → ∀ rest, decode (encode i ++ rest) = some i)

/-- Every list of bytes that decodes does so to a well-formed instruction, whose bytes are the list's first four: no two
encodings are confused and no bit is dropped (R40, R44, R45). -/
def Obligations.EncodeOfDecodeIsTheBytes : Prop :=
  ∀ (bs : List Byte) (i : Instr), decode bs = some i → WellFormed i = true ∧ encode i = bs.take 4

/-- R44, R45: the opcode map, the whole table, for every content of the operand bytes; no byte fails to decode. -/
def Obligations.OpcodeMapIsTheTable : Prop :=
  ∀ (rest : List Byte),
    decode (0x00 :: rest) = some (.load rest[0]? rest[1]? rest[2]?) ∧
    decode (0x01 :: rest) = some (.add rest[0]? rest[1]? rest[2]?) ∧
    decode (0x02 :: rest) = some (.sub rest[0]? rest[1]? rest[2]?) ∧
    decode (0x03 :: rest) = some (.mul rest[0]? rest[1]? rest[2]?) ∧
    decode (0x04 :: rest) = some (.div rest[0]? rest[1]? rest[2]?) ∧
    decode (0x05 :: rest) = some (.jmp rest[0]? rest[1]? rest[2]?) ∧
    decode (0x06 :: rest) = some (.jmpf rest[0]? rest[1]? rest[2]?) ∧
    decode (0x07 :: rest) = some (.jmpb rest[0]? rest[1]? rest[2]?) ∧
    decode (0x08 :: rest) = some (.eq rest[0]? rest[1]? rest[2]?) ∧
    decode (0x09 :: rest) = some (.neq rest[0]? rest[1]? rest[2]?) ∧
    decode (0x0A :: rest) = some (.gt rest[0]? rest[1]? rest[2]?) ∧
    decode (0x0B :: rest) = some (.lt rest[0]? rest[1]? rest[2]?) ∧
    decode (0x0C :: rest) = some (.gtq rest[0]? rest[1]? rest[2]?) ∧
    decode (0x0D :: rest) = some (.ltq rest[0]? rest[1]? rest[2]?) ∧
    decode (0x0E :: rest) = some (.jeq rest[0]? rest[1]? rest[2]?) ∧
    decode (0x0F :: rest) = some (.jneq rest[0]? rest[1]? rest[2]?) ∧
    decode (0x10 :: rest) = some (.inc rest[0]? rest[1]? rest[2]?) ∧
    decode (0x11 :: rest) = some (.dec rest[0]? rest[1]? rest[2]?) ∧
    decode (0xFF :: rest) = some (.hlt rest[0]? rest[1]? rest[2]?) ∧
    (∀ op : Byte, 18 ≤ op.toNat → op.toNat ≤ 254 →
      decode (op :: rest) = some (.igl op rest[0]? rest[1]? rest[2]?)) ∧
    (∀ op : Byte, decode (op :: rest) ≠ none)

/-- Words written out from the encodings of R41 and R55, one of each format, decode to the instruction they stand for.
The place of byte 0 in the table's word is R55's; that it is the first byte in memory is notes/assumptions/10.md. -/
def Obligations.WordsOfEachFormatDecode : Prop :=
  decodeTableWord 32 0x001F1234 = some (.load (some 31) (some 0x12) (some 0x34)) ∧
  decodeTableWord 32 0x04000102 = some (.div (some 0) (some 1) (some 2)) ∧
  decodeTableWord 32 0x0B050600 = some (.lt (some 5) (some 6) (some 0)) ∧
  decodeTableWord 32 0x07020000 = some (.jmpb (some 2) (some 0) (some 0)) ∧
  decodeTableWord 32 0x0F03FFEE = some (.jneq (some 3) (some 0xFF) (some 0xEE)) ∧
  decodeTableWord 32 0x11200000 = some (.dec (some 32) (some 0) (some 0)) ∧
  decodeTableWord 32 0xFF123456 = some (.hlt (some 0x12) (some 0x34) (some 0x56)) ∧
  decodeTableWord 32 0xB9000000 = some (.igl 185 (some 0) (some 0) (some 0))

/-! ### The execution cycle -/

/-- On a running machine a step is the meaning of the instruction the bytes at the PC decode to, and nothing is added
around it (R51). -/
def Obligations.StepRunsTheDecodedInstruction : Prop :=
  ∀ (s : State) (i : Instr), s.runState = .running → decode s.fetchInstr = some i → step s = exec i s

/-- The bytes a step decodes are those at `pc0` to `pc0 + 3`, at any alignment, as far as the buffer holds them: byte `k`
of the instruction is `PROG[pc0 + k]` (R16, R32, R40, R46). The premise on the buffer is part of `State.Inv`. -/
def Obligations.StepFetchesTheBytesAtThePc : Prop :=
  ∀ (s : State) (op : Byte), s.prog.wf → s.runState = .running → s.prog.read s.pc.toNat = some op →
    step s = exec (assemble op (s.prog.read (s.pc.toNat + 1)) (s.prog.read (s.pc.toNat + 2))
      (s.prog.read (s.pc.toNat + 3))) s

/-- Exhaustion: a step that begins with `pc >= LEN` halts and changes nothing else (R20, R34, R51). -/
def Obligations.ExhaustionHaltsCleanly : Prop :=
  ∀ (s : State), s.prog.wf → s.runState = .running → s.len ≤ s.pc.toNat →
    step s = .next { s with runState := .halted }

/-- R22: HALTED is a latch. A halted machine's step is a no-op that reports halted; no sequence of appends, steps and
inspections ends it or changes anything but the program buffer; and a step called when every appended byte has been
executed halts for good. -/
def Obligations.HaltedIsALatch : Prop :=
  (∀ (s : State), s.runState = .halted → step s = .next s ∧ s.result = .halted) ∧
  (∀ (s : State) (ops : List HostOp), s.runState = .halted →
    s.afterOps ops = { s with prog := (s.afterOps ops).prog }) ∧
  (∀ (s t : State) (ops : List HostOp), s.prog.wf → s.runState = .running → s.len ≤ s.pc.toNat → step s = .next t →
    (t.afterOps ops).runState = .halted ∧ (t.afterOps ops).pc = s.pc)

/-- FAULTED is permanent: every later step changes nothing and reports the same cause, appends still append but resume
nothing. This is the spec's decision D11 (R85). -/
def Obligations.FaultedIsPermanent : Prop :=
  ∀ (s : State) (ops : List HostOp), s.runState = .faulted →
    step s = .next s ∧ s.afterOps ops = { s with prog := (s.afterOps ops).prog } ∧
    (s.afterOps ops).result = .fatal s.faultCause

/-- No instruction and no step stops the model: each answers a next state, in every state and for every operand (the
form of a fault is notes/assumptions/1.md). -/
def Obligations.EveryStepAnswersANextState : Prop :=
  (∀ (i : Instr) (s : State), ∃ t, exec i s = .next t) ∧ (∀ (s : State), ∃ t, step s = .next t)

/-- The invariant: a canonical program buffer within its capacity, and FAULT_CAUSE NONE exactly when not FAULTED
(R21, R27). Every step keeps it. -/
def Obligations.StepKeepsTheInvariant : Prop :=
  ∀ (s t : State), s.Inv → step s = .next t → t.Inv

/-- A fresh machine meets the invariant. -/
def Obligations.ResetMeetsTheInvariant : Prop := State.reset.Inv

/-- Every machine a host can bring about, by any sequence of its operations from one that meets the invariant, meets it
(R21, R27, R29). -/
def Obligations.HostOperationsKeepTheInvariant : Prop :=
  ∀ (s : State) (ops : List HostOp), s.Inv → (s.afterOps ops).Inv

/-- The value of every piece of state after `new()` (R91, R92), as the host reads it. That asserting reset performs
`new()` is the spec's decision D23; the values of RUNSTATE and FAULT_CAUSE are the spec's derivation and D15. -/
def Obligations.ResetLeavesEveryValueOfTheTable : Prop :=
  hostNew = State.reset ∧ (∀ i : RegIdx, State.reset.readRegister i = 0) ∧ State.reset.readPc = 0 ∧
  State.reset.readEqualFlag = false ∧ State.reset.readRemainder = 0 ∧ State.reset.readProgram = [] ∧
  State.reset.len = 0 ∧ State.reset.readRunState = 0 ∧ State.reset.readFaultCause = 0

/-- A running machine halts by HLT or by exhaustion, and by nothing else (R20). -/
def Obligations.OnlyHltAndExhaustionHalt : Prop :=
  ∀ (s t : State), s.prog.wf → s.runState = .running → step s = .next t → t.runState = .halted →
    s.len ≤ s.pc.toNat ∨ ∃ p1 p2 p3 : Byte, decode s.fetchInstr = some (.hlt (some p1) (some p2) (some p3))

/-! ### Faults -/

/-- Faults are precise: an instruction that faults changes RUNSTATE and FAULT_CAUSE and nothing else, so the PC stays at
it (R53, R83; the spec's decision D10). -/
def Obligations.FaultsArePrecise : Prop :=
  ∀ (i : Instr) (s t : State), s.runState ≠ .faulted → exec i s = .next t → t.runState = .faulted →
    t.faultCause ≠ .noFault ∧ t = { s with runState := .faulted, faultCause := t.faultCause }

/-- Each cause is raised by the instructions that R80's column "raised by" names and by no other (the causes 4, 6 and 7
are the spec's decisions D4, D6, D12, D13). -/
def Obligations.CausesAreRaisedByTheTable : Prop :=
  ∀ (i : Instr) (s t : State), s.runState ≠ .faulted → exec i s = .next t → t.runState = .faulted →
    raisedBy t.faultCause i s.eqf = true

/-- The order of R54 (the spec's decision D9, and D8 for padding): the first operand byte that is missing, or names no
register, decides the fault, before any check of the instruction's own; with no such byte no operand fault is taken. -/
def Obligations.OperandFaultsComeInByteOrder : Prop :=
  ∀ (i : Instr) (s : State),
    (∀ c, firstOperandFault (operandsFetched i s.eqf) = some c →
      exec i s = .next { s with runState := .faulted, faultCause := c }) ∧
    (∀ t, firstOperandFault (operandsFetched i s.eqf) = none → s.runState ≠ .faulted → exec i s = .next t →
      t.runState = .faulted → t.faultCause ≠ .operandOutOfBounds ∧ t.faultCause ≠ .invalidRegister)

/-- The numbers of R80 and R20 (the spec's decisions D15 and D25). -/
def Obligations.CodesAreTheTables : Prop :=
  FaultCause.noFault.code = 0 ∧ FaultCause.operandOutOfBounds.code = 1 ∧ FaultCause.invalidRegister.code = 2 ∧
  FaultCause.divideByZero.code = 3 ∧ FaultCause.arithOverflow.code = 4 ∧ FaultCause.pcUnderflow.code = 5 ∧
  FaultCause.negativeJumpOperand.code = 6 ∧ FaultCause.pcOverflow.code = 7 ∧
  RunState.running.code = 0 ∧ RunState.halted.code = 1 ∧ RunState.faulted.code = 2

/-! ### What each kind of state is changed and read by -/

/-- R30: the program buffer is append-only. No instruction and no step changes the byte at any address, and no sequence of
the host's operations changes or removes a byte once appended. -/
def Obligations.ProgramBufferIsAppendOnly : Prop :=
  (∀ (i : Instr) (s t : State) (a : Nat), exec i s = .next t → t.prog.read a = s.prog.read a) ∧
  (∀ (s t : State) (a : Nat), step s = .next t → t.prog.read a = s.prog.read a) ∧
  (∀ (s : State) (ops : List HostOp) (a : Nat) (b : Byte), s.prog.read a = some b →
    (s.afterOps ops).prog.read a = some b)

/-- R18: the equal flag is initially false; exactly the six comparisons write it, each with the truth of its own
relation; exactly JEQ and JNEQ read it; a fault does not change it; the host reads it and cannot write it. -/
def Obligations.EqualFlagIsWrittenByComparisonsAndReadByConditionalJumps : Prop :=
  hostNew.eqf = false ∧
  (∀ (i : Instr) (s t : State), isComparison i = false → exec i s = .next t → t.eqf = s.eqf) ∧
  (∀ (a b : RegIdx) (p : Byte) (s : State),
    (∃ t, exec (.eq (regByte a) (regByte b) (some p)) s = .next t ∧
      t.eqf = decide (s.x[a.val].toInt = s.x[b.val].toInt)) ∧
    (∃ t, exec (.neq (regByte a) (regByte b) (some p)) s = .next t ∧
      t.eqf = decide (s.x[a.val].toInt ≠ s.x[b.val].toInt)) ∧
    (∃ t, exec (.gt (regByte a) (regByte b) (some p)) s = .next t ∧
      t.eqf = decide (s.x[a.val].toInt > s.x[b.val].toInt)) ∧
    (∃ t, exec (.lt (regByte a) (regByte b) (some p)) s = .next t ∧
      t.eqf = decide (s.x[a.val].toInt < s.x[b.val].toInt)) ∧
    (∃ t, exec (.gtq (regByte a) (regByte b) (some p)) s = .next t ∧
      t.eqf = decide (s.x[a.val].toInt ≥ s.x[b.val].toInt)) ∧
    (∃ t, exec (.ltq (regByte a) (regByte b) (some p)) s = .next t ∧
      t.eqf = decide (s.x[a.val].toInt ≤ s.x[b.val].toInt))) ∧
  (∀ (i : Instr) (s t : State), s.runState ≠ .faulted → exec i s = .next t → t.runState = .faulted → t.eqf = s.eqf) ∧
  (∀ (i : Instr) (s t u : State) (v : Bool), isConditionalJump i = false → exec i s = .next t →
    exec i { s with eqf := v } = .next u → { u with eqf := t.eqf } = t) ∧
  (∀ (r : RegIdx) (p2 p3 : Byte) (s : State), 0 ≤ s.x[r.val].toInt →
    exec (.jeq (regByte r) (some p2) (some p3)) { s with eqf := true } =
      .next { s with eqf := true, pc := s.x[r.val] } ∧
    exec (.jeq (regByte r) (some p2) (some p3)) { s with eqf := false } = .next { s with eqf := false, pc := s.pc + 4 } ∧
    exec (.jneq (regByte r) (some p2) (some p3)) { s with eqf := false } =
      .next { s with eqf := false, pc := s.x[r.val] } ∧
    exec (.jneq (regByte r) (some p2) (some p3)) { s with eqf := true } = .next { s with eqf := true, pc := s.pc + 4 }) ∧
  (∀ (s : State) (b : Byte), s.readEqualFlag = s.eqf ∧ (s.appendByte b).2.eqf = s.eqf)

/-- Only DIV writes the remainder register, a DIV that faults does not, and no instruction reads it (R19, whose width is
the spec's decision D7). -/
def Obligations.OnlyDivTouchesTheRemainder : Prop :=
  (∀ (i : Instr) (s t : State), (∀ rA rB rD, i ≠ .div rA rB rD) → exec i s = .next t → t.rem = s.rem) ∧
  (∀ (i : Instr) (s t : State), s.runState ≠ .faulted → exec i s = .next t → t.runState = .faulted → t.rem = s.rem) ∧
  (∀ (i : Instr) (s t u : State) (w : Word), exec i s = .next t → exec i { s with rem := w } = .next u →
    { u with rem := t.rem } = t)

/-- R13: which registers an instruction writes, and which it reads. Every other register is unchanged; what an instruction
does to every other piece of state, and to every register but `j`, does not depend on a register `j` that it does not
read; and where operands name the same register, all reads see the value at the start of the step (ADD, SUB and MUL, whose
range is a premise, and every choice of `a`, `b` and `d`). -/
def Obligations.RegistersReadAndWrittenAreTheTables : Prop :=
  (∀ (i : Instr) (s t : State) (j : RegIdx), regByte j ∉ registersWritten i → exec i s = .next t →
    t.x[j.val] = s.x[j.val]) ∧
  (∀ (i : Instr) (s t u : State) (j k : RegIdx) (w : Word), regByte j ∉ registersRead i s.eqf → exec i s = .next t →
    exec i { s with x := s.x.set j.val w } = .next u →
    u.pc = t.pc ∧ u.eqf = t.eqf ∧ u.rem = t.rem ∧ u.runState = t.runState ∧ u.faultCause = t.faultCause ∧
    u.prog = t.prog ∧ (k ≠ j → u.x[k.val] = t.x[k.val])) ∧
  (∀ (a b d : RegIdx) (s t : State),
    (inWordRange (s.x[a.val].toInt + s.x[b.val].toInt) → exec (.add (regByte a) (regByte b) (regByte d)) s = .next t →
      t.x[d.val].toInt = s.x[a.val].toInt + s.x[b.val].toInt) ∧
    (inWordRange (s.x[a.val].toInt - s.x[b.val].toInt) → exec (.sub (regByte a) (regByte b) (regByte d)) s = .next t →
      t.x[d.val].toInt = s.x[a.val].toInt - s.x[b.val].toInt) ∧
    (inWordRange (s.x[a.val].toInt * s.x[b.val].toInt) → exec (.mul (regByte a) (regByte b) (regByte d)) s = .next t →
      t.x[d.val].toInt = s.x[a.val].toInt * s.x[b.val].toInt))

/-- No instruction reads the program buffer as data: what it does depends on its own bytes and the rest of the state
alone (R27, R53). -/
def Obligations.NoInstructionReadsTheBufferAsData : Prop :=
  ∀ (i : Instr) (s t u : State) (m : Memory), exec i s = .next t → exec i { s with prog := m } = .next u →
    u = { t with prog := m }

/-! ### Frames. Each says what its instructions leave unchanged; a fault entry changes RUNSTATE and FAULT_CAUSE alone
(R53, the spec's decision D10). -/

/-- LOAD, ADD, SUB, MUL, DIV, INC and DEC: every register but the destination, EQF, REM (DIV's apart), the run state and
the cause (a fault apart), and every byte of the buffer are unchanged (R13, R18, R19, R30). -/
def Obligations.FrameOfRegisterWriters : Prop :=
  ∀ (i : Instr) (b1 b2 b3 : OperandByte) (s t : State),
    i ∈ [Instr.load b1 b2 b3, .add b1 b2 b3, .sub b1 b2 b3, .mul b1 b2 b3, .div b1 b2 b3, .inc b1 b2 b3, .dec b1 b2 b3] →
    exec i s = .next t →
    (∀ j : RegIdx, regByte j ∉ registersWritten i → t.x[j.val] = s.x[j.val]) ∧
    t.eqf = s.eqf ∧ (i ≠ .div b1 b2 b3 → t.rem = s.rem) ∧
    ((t.runState = s.runState ∧ t.faultCause = s.faultCause) ∨
      t = { s with runState := .faulted, faultCause := t.faultCause }) ∧
    (∀ a, t.prog.read a = s.prog.read a)

/-- The six comparisons: every register, REM, the run state and the cause (a fault apart), and every byte of the buffer are
unchanged (R67). -/
def Obligations.FrameOfComparisons : Prop :=
  ∀ (i : Instr) (b1 b2 b3 : OperandByte) (s t : State),
    i ∈ [Instr.eq b1 b2 b3, .neq b1 b2 b3, .gt b1 b2 b3, .lt b1 b2 b3, .gtq b1 b2 b3, .ltq b1 b2 b3] →
    exec i s = .next t →
    (∀ j : RegIdx, t.x[j.val] = s.x[j.val]) ∧ t.rem = s.rem ∧
    ((t.runState = s.runState ∧ t.faultCause = s.faultCause) ∨
      t = { s with runState := .faulted, faultCause := t.faultCause }) ∧
    (∀ a, t.prog.read a = s.prog.read a)

/-- The five jumps: everything but the PC is unchanged, a fault apart (R63, R64, R65, R66, R74, R75). -/
def Obligations.FrameOfJumps : Prop :=
  ∀ (i : Instr) (b1 b2 b3 : OperandByte) (s t : State),
    i ∈ [Instr.jmp b1 b2 b3, .jmpf b1 b2 b3, .jmpb b1 b2 b3, .jeq b1 b2 b3, .jneq b1 b2 b3] →
    exec i s = .next t →
    (∀ j : RegIdx, t.x[j.val] = s.x[j.val]) ∧ t.eqf = s.eqf ∧ t.rem = s.rem ∧
    ((t.runState = s.runState ∧ t.faultCause = s.faultCause) ∨
      t = { s with runState := .faulted, faultCause := t.faultCause }) ∧
    (∀ a, t.prog.read a = s.prog.read a)

/-- HLT and IGL: every register, EQF, REM and every byte of the buffer are unchanged; HLT writes RUNSTATE alone besides the
PC (a fault apart), and IGL writes the PC alone (R78, R79). -/
def Obligations.FrameOfHaltAndIllegal : Prop :=
  ∀ (i : Instr) (op : Byte) (b1 b2 b3 : OperandByte) (s t : State),
    i ∈ [Instr.hlt b1 b2 b3, .igl op b1 b2 b3] → exec i s = .next t →
    (∀ j : RegIdx, t.x[j.val] = s.x[j.val]) ∧ t.eqf = s.eqf ∧ t.rem = s.rem ∧
    (i = .igl op b1 b2 b3 → t.runState = s.runState ∧ t.faultCause = s.faultCause) ∧
    (i = .hlt b1 b2 b3 → (t.runState = .halted ∧ t.faultCause = s.faultCause) ∨
      t = { s with runState := .faulted, faultCause := t.faultCause }) ∧
    (∀ a, t.prog.read a = s.prog.read a)

/-! ### What each instruction does. Every form with its operands readable completes as stated; the forms that fault are
stated beside it. -/

/-- LOAD writes the unsigned, big-endian number `hi * 256 + lo`, a non-negative value, for every `hi` and `lo`, and advances
by 4 (R42, R56). -/
def Obligations.LoadWritesItsImmediate : Prop :=
  ∀ (d : RegIdx) (hi lo : Byte) (s : State),
    exec (.load (regByte d) (some hi) (some lo)) s =
      .next { s with x := s.x.set d.val (BitVec.ofNat 32 (hi.toNat * 256 + lo.toNat)), pc := s.pc + 4 } ∧
    (BitVec.ofNat 32 (hi.toNat * 256 + lo.toNat)).toInt = hi.toNat * 256 + lo.toNat

/-- ADD, SUB and MUL write the exact signed result when it lies in the signed 32-bit range, and advance by 4 (R57, R58, R59,
R60). Sources and destination may coincide. -/
def Obligations.AddSubMulWriteTheExactResult : Prop :=
  ∀ (a b d : RegIdx) (s : State),
    (inWordRange (s.x[a.val].toInt + s.x[b.val].toInt) →
      ∃ w : Word, w.toInt = s.x[a.val].toInt + s.x[b.val].toInt ∧
        exec (.add (regByte a) (regByte b) (regByte d)) s = .next { s with x := s.x.set d.val w, pc := s.pc + 4 }) ∧
    (inWordRange (s.x[a.val].toInt - s.x[b.val].toInt) →
      ∃ w : Word, w.toInt = s.x[a.val].toInt - s.x[b.val].toInt ∧
        exec (.sub (regByte a) (regByte b) (regByte d)) s = .next { s with x := s.x.set d.val w, pc := s.pc + 4 }) ∧
    (inWordRange (s.x[a.val].toInt * s.x[b.val].toInt) →
      ∃ w : Word, w.toInt = s.x[a.val].toInt * s.x[b.val].toInt ∧
        exec (.mul (regByte a) (regByte b) (regByte d)) s = .next { s with x := s.x.set d.val w, pc := s.pc + 4 })

/-- INC and DEC add and subtract one exactly, and advance by 4, unless the result leaves the signed 32-bit range; their
padding may hold anything (R76, R77). -/
def Obligations.IncAndDecAdjustByOne : Prop :=
  ∀ (r : RegIdx) (p2 p3 : Byte) (s : State),
    (s.x[r.val].toInt ≠ 2 ^ 31 - 1 →
      ∃ w : Word, w.toInt = s.x[r.val].toInt + 1 ∧
        exec (.inc (regByte r) (some p2) (some p3)) s = .next { s with x := s.x.set r.val w, pc := s.pc + 4 }) ∧
    (s.x[r.val].toInt ≠ -2 ^ 31 →
      ∃ w : Word, w.toInt = s.x[r.val].toInt - 1 ∧
        exec (.dec (regByte r) (some p2) (some p3)) s = .next { s with x := s.x.set r.val w, pc := s.pc + 4 })

/-- A result outside the signed 32-bit range is ARITH_OVERFLOW, and nothing is written: never a wrap or a saturation (R57,
R76, R77; the spec's decision D4). -/
def Obligations.OverflowIsFatal : Prop :=
  ∀ (a b d : RegIdx) (p2 p3 : Byte) (s : State),
    (¬ inWordRange (s.x[a.val].toInt + s.x[b.val].toInt) →
      exec (.add (regByte a) (regByte b) (regByte d)) s =
        .next { s with runState := .faulted, faultCause := .arithOverflow }) ∧
    (¬ inWordRange (s.x[a.val].toInt - s.x[b.val].toInt) →
      exec (.sub (regByte a) (regByte b) (regByte d)) s =
        .next { s with runState := .faulted, faultCause := .arithOverflow }) ∧
    (¬ inWordRange (s.x[a.val].toInt * s.x[b.val].toInt) →
      exec (.mul (regByte a) (regByte b) (regByte d)) s =
        .next { s with runState := .faulted, faultCause := .arithOverflow }) ∧
    (s.x[a.val].toInt = 2 ^ 31 - 1 →
      exec (.inc (regByte a) (some p2) (some p3)) s =
        .next { s with runState := .faulted, faultCause := .arithOverflow }) ∧
    (s.x[a.val].toInt = -2 ^ 31 →
      exec (.dec (regByte a) (some p2) (some p3)) s =
        .next { s with runState := .faulted, faultCause := .arithOverflow })

/-- DIV writes the quotient to the destination and the remainder to REM: `n = q * m + r` with `|r| < |m|` and `r` zero or of
the sign of `n`, which settles both; the two originals count even where the destination is a source (R61, R62; rounding
toward zero is the spec's decision D5). -/
def Obligations.DivWritesQuotientAndRemainder : Prop :=
  ∀ (a b d : RegIdx) (s : State), s.x[b.val].toInt ≠ 0 →
    ¬ (s.x[a.val].toInt = -2 ^ 31 ∧ s.x[b.val].toInt = -1) →
    ∃ q r : Word,
      s.x[a.val].toInt = q.toInt * s.x[b.val].toInt + r.toInt ∧
      r.toInt.natAbs < s.x[b.val].toInt.natAbs ∧
      (r.toInt = 0 ∨ (0 < r.toInt ∧ 0 < s.x[a.val].toInt) ∨ (r.toInt < 0 ∧ s.x[a.val].toInt < 0)) ∧
      exec (.div (regByte a) (regByte b) (regByte d)) s =
        .next { s with x := s.x.set d.val q, rem := r, pc := s.pc + 4 }

/-- DIV by zero, and -2^31 / -1, are fatal and write neither the destination nor REM (R62; the second is the spec's decision
D6). -/
def Obligations.DivFaultsAsTheRuleSays : Prop :=
  ∀ (a b d : RegIdx) (s : State),
    (s.x[b.val].toInt = 0 →
      exec (.div (regByte a) (regByte b) (regByte d)) s =
        .next { s with runState := .faulted, faultCause := .divideByZero }) ∧
    (s.x[a.val].toInt = -2 ^ 31 → s.x[b.val].toInt = -1 →
      exec (.div (regByte a) (regByte b) (regByte d)) s =
        .next { s with runState := .faulted, faultCause := .arithOverflow })

/-- JMP goes to the register's value, whatever its alignment and wherever the buffer ends; JMPF and JMPB count from
`pc0 + 2`; none looks at its padding, which may be missing (R16, R63, R64, R65, R66). JMPB's premise on `pc0` holds of every
state a step executes from (R17). -/
def Obligations.UnconditionalJumpsReachTheirTargets : Prop :=
  ∀ (r : RegIdx) (p2 p3 : OperandByte) (s : State), 0 ≤ s.x[r.val].toInt →
    exec (.jmp (regByte r) p2 p3) s = .next { s with pc := s.x[r.val] } ∧
    (s.pc.toNat + 2 + s.x[r.val].toInt ≤ 2 ^ 32 - 1 →
      ∃ t : Word, (t.toNat : Int) = s.pc.toNat + 2 + s.x[r.val].toInt ∧
        exec (.jmpf (regByte r) p2 p3) s = .next { s with pc := t }) ∧
    (s.x[r.val].toInt ≤ s.pc.toNat + 2 → s.pc.toNat < 2 ^ 31 →
      ∃ t : Word, (t.toNat : Int) = s.pc.toNat + 2 - s.x[r.val].toInt ∧
        exec (.jmpb (regByte r) p2 p3) s = .next { s with pc := t })

/-- The PC never wraps in a jump: a JMPF target above 2^32-1 is PC_OVERFLOW (the spec's decision D13), a JMPB offset beyond
`pc0 + 2` is PC_UNDERFLOW (R17, R65, R66). -/
def Obligations.RelativeJumpsNeverWrap : Prop :=
  ∀ (r : RegIdx) (p2 p3 : OperandByte) (s : State), 0 ≤ s.x[r.val].toInt →
    (2 ^ 32 - 1 < s.pc.toNat + 2 + s.x[r.val].toInt →
      exec (.jmpf (regByte r) p2 p3) s = .next { s with runState := .faulted, faultCause := .pcOverflow }) ∧
    (s.pc.toNat + 2 < s.x[r.val].toInt →
      exec (.jmpb (regByte r) p2 p3) s = .next { s with runState := .faulted, faultCause := .pcUnderflow })

/-- A negative register value as a target or offset is NEGATIVE_JUMP_OPERAND, for JEQ and JNEQ when taken; when not taken the
value is not examined (R63, R74, R75; the spec's decisions D12 and D17). -/
def Obligations.NegativeJumpOperandsAreFatal : Prop :=
  ∀ (r : RegIdx) (p2 p3 : OperandByte) (s : State), s.x[r.val].toInt < 0 →
    exec (.jmp (regByte r) p2 p3) s = .next { s with runState := .faulted, faultCause := .negativeJumpOperand } ∧
    exec (.jmpf (regByte r) p2 p3) s = .next { s with runState := .faulted, faultCause := .negativeJumpOperand } ∧
    exec (.jmpb (regByte r) p2 p3) s = .next { s with runState := .faulted, faultCause := .negativeJumpOperand } ∧
    (s.eqf = true →
      exec (.jeq (regByte r) p2 p3) s = .next { s with runState := .faulted, faultCause := .negativeJumpOperand }) ∧
    (s.eqf = false →
      exec (.jneq (regByte r) p2 p3) s = .next { s with runState := .faulted, faultCause := .negativeJumpOperand }) ∧
    (∀ v2 v3 : Byte, p2 = some v2 → p3 = some v3 →
      (s.eqf = false → exec (.jeq (regByte r) p2 p3) s = .next { s with pc := s.pc + 4 }) ∧
      (s.eqf = true → exec (.jneq (regByte r) p2 p3) s = .next { s with pc := s.pc + 4 }))

/-- JEQ jumps when EQF is set and JNEQ when it is clear, to the register's value, with the padding unread and perhaps
missing; otherwise the padding is consumed and the PC advances by 4 (R74, R75; the padding's fetch is the spec's decision
D8). -/
def Obligations.ConditionalJumpsFollowTheFlag : Prop :=
  ∀ (r : RegIdx) (p2 p3 : OperandByte) (s : State),
    (s.eqf = true → 0 ≤ s.x[r.val].toInt → exec (.jeq (regByte r) p2 p3) s = .next { s with pc := s.x[r.val] }) ∧
    (s.eqf = false → 0 ≤ s.x[r.val].toInt → exec (.jneq (regByte r) p2 p3) s = .next { s with pc := s.x[r.val] }) ∧
    (s.eqf = false → p2.isSome → p3.isSome → exec (.jeq (regByte r) p2 p3) s = .next { s with pc := s.pc + 4 }) ∧
    (s.eqf = true → p2.isSome → p3.isSome → exec (.jneq (regByte r) p2 p3) s = .next { s with pc := s.pc + 4 }) ∧
    (p2 = none ∨ p3 = none →
      (s.eqf = false → exec (.jeq (regByte r) p2 p3) s =
        .next { s with runState := .faulted, faultCause := .operandOutOfBounds }) ∧
      (s.eqf = true → exec (.jneq (regByte r) p2 p3) s =
        .next { s with runState := .faulted, faultCause := .operandOutOfBounds }))

/-- Each comparison writes the truth of its signed relation to EQF, advances by 4 and writes nothing else, whatever its
padding byte holds (R67 to R73; that the padding must be present is the spec's decision D8). -/
def Obligations.ComparisonsWriteTheirRelation : Prop :=
  ∀ (a b : RegIdx) (p : Byte) (s : State),
    exec (.eq (regByte a) (regByte b) (some p)) s =
      .next { s with eqf := decide (s.x[a.val].toInt = s.x[b.val].toInt), pc := s.pc + 4 } ∧
    exec (.neq (regByte a) (regByte b) (some p)) s =
      .next { s with eqf := decide (s.x[a.val].toInt ≠ s.x[b.val].toInt), pc := s.pc + 4 } ∧
    exec (.gt (regByte a) (regByte b) (some p)) s =
      .next { s with eqf := decide (s.x[b.val].toInt < s.x[a.val].toInt), pc := s.pc + 4 } ∧
    exec (.lt (regByte a) (regByte b) (some p)) s =
      .next { s with eqf := decide (s.x[a.val].toInt < s.x[b.val].toInt), pc := s.pc + 4 } ∧
    exec (.gtq (regByte a) (regByte b) (some p)) s =
      .next { s with eqf := decide (s.x[b.val].toInt ≤ s.x[a.val].toInt), pc := s.pc + 4 } ∧
    exec (.ltq (regByte a) (regByte b) (some p)) s =
      .next { s with eqf := decide (s.x[a.val].toInt ≤ s.x[b.val].toInt), pc := s.pc + 4 }

/-- HLT halts, with the PC past it, whatever its padding holds (R78; the PC's advance is the spec's decision D14). -/
def Obligations.HltHaltsPastItself : Prop :=
  ∀ (p1 p2 p3 : Byte) (s : State),
    exec (.hlt (some p1) (some p2) (some p3)) s = .next { s with pc := s.pc + 4, runState := .halted }

/-- R79: every opcode byte 18 to 254 is a no-op of four bytes. It decodes to IGL whatever follows; IGL advances the PC by 4 and
changes nothing else, whether or not any byte follows the opcode, so it never halts or faults the machine; and when the new
PC is beyond LEN the next step halts cleanly. -/
def Obligations.IllegalOpcodesAreFourByteNoOps : Prop :=
  ∀ (op : Byte), 18 ≤ op.toNat → op.toNat ≤ 254 →
    (∀ rest : List Byte, decode (op :: rest) = some (.igl op rest[0]? rest[1]? rest[2]?)) ∧
    (∀ (u1 u2 u3 : OperandByte) (s : State), exec (.igl op u1 u2 u3) s = .next { s with pc := s.pc + 4 }) ∧
    (∀ (s : State), s.prog.wf → s.runState = .running → s.prog.read s.pc.toNat = some op →
      step s = .next { s with pc := s.pc + 4 } ∧ State.result { s with pc := s.pc + 4 } = .running ∧
      (s.len ≤ (s.pc + 4).toNat →
        step { s with pc := s.pc + 4 } = .next { s with pc := s.pc + 4, runState := .halted }))

/-- Two encodings that differ only in padding bytes that are there execute identically; a jump's padding, and the bytes IGL
does not fetch, do not even need to be there (R41, R43, R79). -/
def Obligations.PaddingValuesAreIgnored : Prop :=
  ∀ (a b : OperandByte) (p q p' q' v v' : Byte) (o1 o2 o1' o2' o3 o3' : OperandByte) (s : State),
    exec (.eq a b (some p)) s = exec (.eq a b (some p')) s ∧
    exec (.neq a b (some p)) s = exec (.neq a b (some p')) s ∧
    exec (.gt a b (some p)) s = exec (.gt a b (some p')) s ∧
    exec (.lt a b (some p)) s = exec (.lt a b (some p')) s ∧
    exec (.gtq a b (some p)) s = exec (.gtq a b (some p')) s ∧
    exec (.ltq a b (some p)) s = exec (.ltq a b (some p')) s ∧
    exec (.jeq a (some p) (some q)) s = exec (.jeq a (some p') (some q')) s ∧
    exec (.jneq a (some p) (some q)) s = exec (.jneq a (some p') (some q')) s ∧
    exec (.inc a (some p) (some q)) s = exec (.inc a (some p') (some q')) s ∧
    exec (.dec a (some p) (some q)) s = exec (.dec a (some p') (some q')) s ∧
    exec (.hlt (some v) (some p) (some q)) s = exec (.hlt (some v') (some p') (some q')) s ∧
    exec (.jmp a o1 o2) s = exec (.jmp a o1' o2') s ∧
    exec (.jmpf a o1 o2) s = exec (.jmpf a o1' o2') s ∧
    exec (.jmpb a o1 o2) s = exec (.jmpb a o1' o2') s ∧
    exec (.igl v o1 o2 o3) s = exec (.igl v o1' o2' o3') s

/-! ### The host's operations and whole runs -/

/-- `append_byte` puts the byte at the old LEN, whatever the run state, and changes nothing else; at capacity it returns
BUFFER_FULL and changes nothing (R26, R29; the bound is the spec's decision D3, the run states D18). -/
def Obligations.AppendByteAppendsOrRefuses : Prop :=
  ∀ (cap : Nat) (b : Byte) (s : State),
    (s.len = cap → s.appendByteWithin cap b = (.bufferFull, s)) ∧
    (s.len < cap → s.prog.wf →
      (s.appendByteWithin cap b).1 = .ok ∧
      (s.appendByteWithin cap b).2 = { s with prog := (s.appendByteWithin cap b).2.prog } ∧
      (s.appendByteWithin cap b).2.len = s.len + 1 ∧
      (∀ a, (s.appendByteWithin cap b).2.prog.read a = if a = s.len then some b else s.prog.read a))

/-- A byte appended to a running machine is what the next step fetches there, with no delay, and stays there whatever the host
does afterwards (R30, R38, R95, R96). -/
def Obligations.AppendedBytesAreSeenAtOnce : Prop :=
  ∀ (s : State) (b : Byte), s.Inv → s.len < Config.progCapacity →
    (∀ ops : List HostOp, ((s.appendByte b).2.afterOps ops).prog.read s.len = some b) ∧
    (s.runState = .running → s.pc.toNat = s.len →
      step (s.appendByte b).2 = exec (assemble b none none none) (s.appendByte b).2)

/-- `run()` repeats `step()` until it returns something other than Running, and returns that with the state then; on a halted
or faulted machine it returns at once. With fuel `n` it answers exactly when that happens within `n` steps (R52; after a
fault, the spec's decision D11; fuel is notes/assumptions/9.md). -/
def Obligations.RunRepeatsStepUntilItStops : Prop :=
  (∀ (fuel : Nat) (s t : State) (r : StepResult),
    s.runFor fuel = some (r, t) ↔
      ∃ k, k < fuel ∧ t = s.afterSteps (k + 1) ∧ r = t.result ∧ r ≠ .running ∧
        ∀ j, j < k → (s.afterSteps (j + 1)).result = .running) ∧
  (∀ (fuel : Nat) (s : State), s.runState ≠ .running → s.runFor (fuel + 1) = some (s.result, s))

/-- A run may never end: a JMP to its own address and a JMPB by 2 repeat for ever, neither halting nor faulting, and no fuel is
enough (R99, C4). The premises on the buffer are part of the invariant, since PROG_CAPACITY is at most 2^31 (R27). -/
def Obligations.JumpsToThemselvesNeverEnd : Prop :=
  ∀ (s : State) (r : RegIdx), s.prog.wf → s.len ≤ 2 ^ 31 → s.runState = .running →
    s.prog.read (s.pc.toNat + 1) = regByte r →
    (s.prog.read s.pc.toNat = some 0x05 ∧ s.x[r.val] = s.pc) ∨
      (s.prog.read s.pc.toNat = some 0x07 ∧ s.x[r.val] = 2) →
    ∀ n : Nat, s.afterSteps n = s ∧ s.runFor n = none

/-- The PC moves in strides of four: a step that runs an instruction other than a jump, and does not fault, leaves the PC
exactly four higher, with no wrap (R15, R17, R40). The premises on the buffer are part of the invariant (R27). -/
def Obligations.NonJumpStrideIsFour : Prop :=
  ∀ (s t : State) (i : Instr), s.prog.wf → s.len ≤ 2 ^ 31 → s.runState = .running →
    decode s.fetchInstr = some i → isJump i = false →
    step s = .next t → t.runState ≠ .faulted → t.pc.toNat = s.pc.toNat + 4

/-- The source's property of programs without jumps, as C3 reads it: with no jump opcode at any address the stride reaches,
the PC after `n` steps that leave the machine running is the first plus `4 * n`; if the next step halts, the PC is that (by
exhaustion) or four more (by HLT), so it counts the instructions executed. The premises on the buffer are part of the
invariant (R27). -/
def Obligations.NonJumpProgramsCountInstructions : Prop :=
  ∀ (s : State) (n : Nat), s.prog.wf → s.len ≤ 2 ^ 31 → s.runState = .running →
    (∀ (k : Nat) (op : Byte), s.prog.read (s.pc.toNat + 4 * k) = some op → isJump (assemble op none none none) = false) →
    (s.afterSteps n).runState = .running →
    (s.afterSteps n).pc.toNat = s.pc.toNat + 4 * n ∧
    ((s.afterSteps (n + 1)).runState = .halted →
      (s.afterSteps (n + 1)).pc.toNat = if s.len ≤ s.pc.toNat + 4 * n then s.pc.toNat + 4 * n else s.pc.toNat + 4 * (n + 1))

/-- A PC beyond the buffer is no fault in itself, an operand fetch beyond it is: after a JMP to any non-negative value at or
beyond LEN the next step halts cleanly, and a step whose opcode is the last byte of the buffer faults with
OPERAND_OUT_OF_BOUNDS unless it is an illegal opcode, which fetches none (R16, R28, R34; that the machine is then FAULTED is
the spec's decision D10). -/
def Obligations.PcBeyondTheEndHaltsAndOperandBeyondTheEndFaults : Prop :=
  ∀ (s : State), s.prog.wf → s.runState = .running →
    (∀ (r : RegIdx) (p2 p3 : OperandByte) (t : State), 0 ≤ s.x[r.val].toInt → (s.len : Int) ≤ s.x[r.val].toInt →
      exec (.jmp (regByte r) p2 p3) s = .next t →
      t.pc = s.x[r.val] ∧ step t = .next { t with runState := .halted }) ∧
    (∀ op : Byte, s.prog.read s.pc.toNat = some op → s.len = s.pc.toNat + 1 → op.toNat ≤ 17 ∨ op.toNat = 255 →
      step s = .next { s with runState := .faulted, faultCause := .operandOutOfBounds })
end

