-- ==== Sys2Proof/Laws/Memory.lean ====
section
/-!
SUPPORT. The program buffer: every operation keeps the canonical form, and what each leaves an address to read as.
-/

namespace Sys2Proof.Machine

/-- In the canonical form the cell at position `k` is the one of address `k`. -/
theorem wf_getElem {m : Memory} (h : m.wf) (k : Nat) (hk : k < m.length) : (m[k]).1 = k := by
  have hmap : (m.map Prod.fst)[k]'(by simpa using hk) = (List.range m.length)[k]'(by simpa using hk) := by
    simp only [h]
  simpa using hmap

/-- The canonical form is the one where the cell at position `k` is the one of address `k`. -/
theorem wf_iff {m : Memory} : m.wf ↔ ∀ k (hk : k < m.length), (m[k]).1 = k := by
  refine ⟨fun h k hk => wf_getElem h k hk, fun h => List.ext_getElem (by simp) fun k h1 h2 => ?_⟩
  simpa using h k (by simpa using h1)

/-- Addresses strictly rise in the canonical form. -/
theorem wf_rising {m : Memory} (h : m.wf) : (m.map Prod.fst).Pairwise (· < ·) := by
  rw [h]; exact List.pairwise_lt_range

@[simp] theorem read_nil (a : Nat) : Memory.read [] a = none := rfl

theorem read_cons (c : Host.Cell) (m : Memory) (a : Nat) :
    Memory.read (c :: m) a = if a = c.1 then some c.2 else Memory.read m a := by
  obtain ⟨k, b⟩ := c
  simp only [Memory.read, List.lookup_cons]
  by_cases h : a = k
  · simp [h]
  · have hb : (a == k) = false := by simpa using h
    simp [hb, h]

/-- The first part of a buffer hides the second. -/
theorem read_of_append (m n : Memory) (a : Nat) :
    Memory.read (m ++ n) a = (Memory.read m a).or (Memory.read n a) := by
  induction m with
  | nil => simp
  | cons c m ih =>
    rw [List.cons_append, read_cons, read_cons]
    split <;> simp [ih]

theorem read_eq_none_of_forall {m : Memory} {a : Nat} (h : ∀ c ∈ m, c.1 ≠ a) : m.read a = none := by
  induction m with
  | nil => rfl
  | cons c m ih =>
    rw [read_cons, if_neg fun e => h c (by simp) e.symm]
    exact ih fun d hd => h d (by simp [hd])

/-- In the canonical form the read of an address is the byte at that position. -/
theorem read_eq_getElem {m : Memory} (h : m.wf) (a : Nat) : m.read a = (m[a]?).map Prod.snd := by
  have key : ∀ (n : Memory) (base : Nat), (∀ k (hk : k < n.length), (n[k]).1 = base + k) →
      ∀ k, n.read (base + k) = (n[k]?).map Prod.snd := by
    intro n
    induction n with
    | nil => simp
    | cons c n ih =>
      intro base hn k
      have h0 : c.1 = base := hn 0 (by simp)
      rw [read_cons, h0]
      cases k with
      | zero => simp
      | succ k =>
        rw [if_neg (by omega), show base + (k + 1) = base + 1 + k by omega]
        rw [ih (base + 1) (fun j hj => by have := hn (j + 1) (by simpa using hj); simpa [Nat.add_assoc, Nat.add_comm 1] using this)]
        simp
  simpa using key m 0 (by simpa using wf_getElem h) a

/-- An address holds nothing exactly at or beyond LEN (R34). -/
theorem read_eq_none_iff {m : Memory} (h : m.wf) (a : Nat) : m.read a = none ↔ m.length ≤ a := by
  rw [read_eq_getElem h]; simp

theorem wf_nil : Memory.wf [] := rfl

/-- `append_byte` keeps the canonical form. -/
theorem append_wf {m : Memory} (h : m.wf) (b : Byte) : (m.append b).wf := by
  simp only [Memory.append, Memory.wf, List.map_append, List.length_append, List.length_singleton, List.range_succ, h.symm]
  simp

@[simp] theorem append_length (m : Memory) (b : Byte) : (m.append b).length = m.length + 1 := by
  simp [Memory.append]

/-- A byte keeps its address and value when another is appended (R30). -/
theorem read_append_of_some {m : Memory} {a : Nat} {v : Byte} (h : m.read a = some v) (b : Byte) :
    (m.append b).read a = some v := by
  rw [Memory.append, read_of_append, h]; rfl

/-- The appended byte stands at the old LEN; every other address reads as before (R29). -/
theorem read_append {m : Memory} (h : m.wf) (b : Byte) (a : Nat) :
    (m.append b).read a = if a = m.length then some b else m.read a := by
  rw [Memory.append, read_of_append, read_cons]
  by_cases e : a = m.length
  · simp [e, (read_eq_none_iff h m.length).2 (Nat.le_refl _)]
  · simp [e]

theorem padTo_wf {m : Memory} (h : m.wf) (n : Nat) : (m.padTo n).wf := by
  rw [wf_iff] at h ⊢
  intro k hk
  simp only [Memory.padTo] at hk ⊢
  rw [List.getElem_append]
  split
  · exact h k _
  · next hlt => simp [List.getElem_map, List.getElem_range']; omega

theorem padTo_length (m : Memory) (n : Nat) : (m.padTo n).length = max m.length n := by
  simp [Memory.padTo]; omega

/-- Placing a byte keeps the canonical form. -/
theorem place_wf {m : Memory} (h : m.wf) (a : Nat) (b : Byte) : (m.place a b).wf := by
  have hp := padTo_wf h (a + 1)
  rw [wf_iff] at hp ⊢
  intro k hk
  simp only [Memory.place, List.getElem_map]
  split
  · next e => rw [← e]; exact hp k _
  · exact hp k _

theorem place_length (m : Memory) (a : Nat) (b : Byte) : (m.place a b).length = max m.length (a + 1) := by
  simp [Memory.place, padTo_length]

theorem placeAll_wf {m : Memory} (h : m.wf) (a : Nat) (bs : List Byte) : (m.placeAll a bs).wf := by
  induction bs generalizing m a with
  | nil => exact h
  | cons b bs ih => exact ih (place_wf h a b) (a + 1)

/-- A placed byte reads back; below the old LEN every other address reads as before. -/
theorem read_place {m : Memory} (h : m.wf) (a : Nat) (b : Byte) (k : Nat) :
    (m.place a b).read k = if k = a then some b else (m.padTo (a + 1)).read k := by
  have hp := padTo_wf h (a + 1)
  rw [read_eq_getElem (place_wf h a b), read_eq_getElem hp]
  simp only [Memory.place, List.getElem?_map]
  by_cases hk : k < (m.padTo (a + 1)).length
  · have := wf_getElem hp k hk
    by_cases e : k = a
    · subst e; simp [List.getElem?_eq_getElem hk, this]
    · simp [List.getElem?_eq_getElem hk, this, e]
  · have : k ≠ a := by rintro rfl; exact hk (by rw [padTo_length]; omega)
    rw [if_neg this]
    simp [List.getElem?_eq_none (Nat.le_of_not_lt hk)]

/-- In the canonical form a fetch finds a byte only where it finds every byte before it. -/
theorem read_mono {m : Memory} (h : m.wf) {a k : Nat} (hak : a ≤ k) (hnone : m.read a = none) : m.read k = none := by
  rw [read_eq_none_iff h] at hnone ⊢; omega

/-- What a fetch of four bytes finds: nothing at or beyond LEN, else the opcode byte and the three operand bytes as far
as they are there (R40, R46). -/
theorem decode_fetchBytes {m : Memory} (h : m.wf) (a : Nat) :
    decode (m.fetchBytes 4 a) =
      (m.read a).map fun op => assemble op (m.read (a + 1)) (m.read (a + 2)) (m.read (a + 3)) := by
  have h12 := fun e => read_mono h (show a + 1 ≤ a + 2 by omega) e
  have h13 := fun e => read_mono h (show a + 1 ≤ a + 3 by omega) e
  have h23 := fun e => read_mono h (show a + 2 ≤ a + 3 by omega) e
  simp only [Memory.fetchBytes, Nat.add_assoc, Nat.reduceAdd]
  cases e0 : m.read a with
  | none => rfl
  | some op =>
    cases e1 : m.read (a + 1) with
    | none => simp [decode, h12 e1, h13 e1]
    | some b1 =>
      cases e2 : m.read (a + 2) with
      | none => simp [decode, h23 e2]
      | some b2 => cases e3 : m.read (a + 3) <;> simp [decode]

end Sys2Proof.Machine
end

