-- ==== Sys2Proof/Laws/Operands.lean ====
section
/-!
SUPPORT. Everything each check of an instruction can answer, one lemma per check and outcome.
-/

namespace Sys2Proof.Machine

/-- A chain of checks succeeds when each of them does. -/
theorem except_bind_eq_ok {α β : Type} {r : Except FaultCause α} {f : α → Except FaultCause β} {b : β} :
    (r >>= f) = .ok b ↔ ∃ a, r = .ok a ∧ f a = .ok b := by
  cases r <;> simp [bind, Except.bind]

/-- A chain of checks fails at the first that does. -/
theorem except_bind_eq_error {α β : Type} {r : Except FaultCause α} {f : α → Except FaultCause β} {c : FaultCause} :
    (r >>= f) = .error c ↔ r = .error c ∨ ∃ a, r = .ok a ∧ f a = .error c := by
  cases r <;> simp [bind, Except.bind]

@[simp] theorem except_pure {α : Type} (a : α) : (pure a : Except FaultCause α) = .ok a := rfl

@[simp] theorem except_bind_ok {α β : Type} (a : α) (f : α → Except FaultCause β) : (Except.ok a >>= f) = f a := rfl

@[simp] theorem except_bind_error {α β : Type} (c : FaultCause) (f : α → Except FaultCause β) :
    (Except.error c >>= f) = .error c := rfl

@[simp] theorem fetch_some (b : Byte) : fetch (some b) = .ok b := rfl
@[simp] theorem fetch_none : fetch none = .error .operandOutOfBounds := rfl
@[simp] theorem pad_some (b : Byte) : pad (some b) = .ok () := rfl
@[simp] theorem pad_none : pad none = .error .operandOutOfBounds := rfl
@[simp] theorem regOperand_none : regOperand none = .error .operandOutOfBounds := rfl

theorem fetch_eq_ok {o : OperandByte} {b : Byte} : fetch o = .ok b ↔ o = some b := by
  cases o <;> simp

theorem fetch_eq_error {o : OperandByte} {c : FaultCause} :
    fetch o = .error c ↔ o = none ∧ c = .operandOutOfBounds := by
  cases o <;> simp [eq_comm]

theorem pad_eq_ok {o : OperandByte} {u : Unit} : pad o = .ok u ↔ o.isSome := by
  cases o <;> simp

theorem pad_eq_error {o : OperandByte} {c : FaultCause} :
    pad o = .error c ↔ o = none ∧ c = .operandOutOfBounds := by
  cases o <;> simp [eq_comm]

/-- A byte above 31 names no register (R12). -/
theorem regOperand_some_of_gt {b : Byte} (h : 31 < b.toNat) : regOperand (some b) = .error .invalidRegister := by
  simp [regOperand, fetch, regIndex, show ¬ b.toNat < 32 by omega]

/-- A byte from 0 to 31 names that register (R12). -/
theorem regOperand_some_of_le {b : Byte} (h : b.toNat ≤ 31) :
    regOperand (some b) = .ok ⟨b.toNat, by omega⟩ := by
  simp [regOperand, fetch, regIndex, show b.toNat < 32 by omega]

@[simp] theorem regOperand_regByte (i : RegIdx) : regOperand (regByte i) = .ok i := by
  have h : (BitVec.ofNat 8 i.val).toNat = i.val := by have := i.isLt; simp; omega
  rw [regByte, regOperand_some_of_le (by have := i.isLt; omega)]
  simp [h]

theorem regByte_inj {i j : RegIdx} : regByte i = regByte j ↔ i = j := by
  refine ⟨fun h => ?_, fun h => by rw [h]⟩
  have := regOperand_regByte i
  rw [h, regOperand_regByte] at this
  simpa using this.symm

/-- A register operand answers the register its byte names, and no other byte names it (R12). -/
theorem regOperand_eq_ok {o : OperandByte} {i : RegIdx} : regOperand o = .ok i ↔ o = regByte i := by
  refine ⟨fun h => ?_, fun h => by rw [h, regOperand_regByte]⟩
  cases o with
  | none => simp at h
  | some b =>
    by_cases hb : b.toNat ≤ 31
    · rw [regOperand_some_of_le hb] at h
      injection h with h
      subst h
      simp [regByte]
    · rw [regOperand_some_of_gt (by omega)] at h
      simp at h

/-- A register operand fails where its byte is missing or above 31, the bounds first (R54). -/
theorem regOperand_eq_error {o : OperandByte} {c : FaultCause} :
    regOperand o = .error c ↔
      (o = none ∧ c = .operandOutOfBounds) ∨ (∃ b, o = some b ∧ 31 < b.toNat ∧ c = .invalidRegister) := by
  cases o with
  | none => simp [eq_comm]
  | some b =>
    by_cases hb : b.toNat ≤ 31
    · simp [regOperand_some_of_le hb, hb]
    · simp [regOperand_some_of_gt (by omega : 31 < b.toNat), eq_comm]; omega

/-- The three operands of format RRR, and where they fail: at the first that does. -/
theorem operandsRRR_eq_ok {rA rB rD : OperandByte} {p : RegIdx × RegIdx × RegIdx} :
    operandsRRR rA rB rD = .ok p ↔ rA = regByte p.1 ∧ rB = regByte p.2.1 ∧ rD = regByte p.2.2 := by
  obtain ⟨a, b, d⟩ := p
  simp only [operandsRRR, except_bind_eq_ok, regOperand_eq_ok, except_pure]
  constructor
  · rintro ⟨a', ha, b', hb, d', hd, h⟩
    simp only [Except.ok.injEq, Prod.mk.injEq] at h
    obtain ⟨rfl, rfl, rfl⟩ := h
    exact ⟨ha, hb, hd⟩
  · rintro ⟨ha, hb, hd⟩
    exact ⟨a, ha, b, hb, d, hd, rfl⟩

theorem operandsRRR_eq_error {rA rB rD : OperandByte} {c : FaultCause} :
    operandsRRR rA rB rD = .error c ↔
      regOperand rA = .error c ∨
        (∃ a, rA = regByte a ∧ (regOperand rB = .error c ∨ ∃ b, rB = regByte b ∧ regOperand rD = .error c)) := by
  simp [operandsRRR, except_bind_eq_error, regOperand_eq_ok]

theorem operandsRR_eq_ok {rA rB p3 : OperandByte} {p : RegIdx × RegIdx} :
    operandsRR rA rB p3 = .ok p ↔ rA = regByte p.1 ∧ rB = regByte p.2 ∧ p3.isSome := by
  obtain ⟨a, b⟩ := p
  simp only [operandsRR, except_bind_eq_ok, regOperand_eq_ok, except_pure, pad_eq_ok]
  constructor
  · rintro ⟨a', ha, b', hb, u, hp, h⟩
    simp only [Except.ok.injEq, Prod.mk.injEq] at h
    obtain ⟨rfl, rfl⟩ := h
    exact ⟨ha, hb, hp⟩
  · rintro ⟨ha, hb, hp⟩
    exact ⟨a, ha, b, hb, (), hp, rfl⟩

theorem operandsRR_eq_error {rA rB p3 : OperandByte} {c : FaultCause} :
    operandsRR rA rB p3 = .error c ↔
      regOperand rA = .error c ∨
        (∃ a, rA = regByte a ∧ (regOperand rB = .error c ∨ ∃ b, rB = regByte b ∧ pad p3 = .error c)) := by
  simp [operandsRR, except_bind_eq_error, regOperand_eq_ok]

theorem operandsRPP_eq_ok {r p2 p3 : OperandByte} {i : RegIdx} :
    operandsRPP r p2 p3 = .ok i ↔ r = regByte i ∧ p2.isSome ∧ p3.isSome := by
  simp only [operandsRPP, except_bind_eq_ok, regOperand_eq_ok, except_pure, pad_eq_ok]
  constructor
  · rintro ⟨i', hi, u, h2, v, h3, h⟩
    simp only [Except.ok.injEq] at h
    exact ⟨h ▸ hi, h2, h3⟩
  · rintro ⟨hi, h2, h3⟩
    exact ⟨i, hi, (), h2, (), h3, rfl⟩

theorem operandsRPP_eq_error {r p2 p3 : OperandByte} {c : FaultCause} :
    operandsRPP r p2 p3 = .error c ↔
      regOperand r = .error c ∨
        (∃ i, r = regByte i ∧ (pad p2 = .error c ∨ (p2.isSome ∧ pad p3 = .error c))) := by
  simp [operandsRPP, except_bind_eq_error, regOperand_eq_ok, pad_eq_ok]

/-- An integer in the signed 32-bit range is written exactly, any other is fatal (R57). -/
theorem narrow_of_inWordRange {n : Int} (h : inWordRange n) : narrow n = .ok (wordOf n) := by
  obtain ⟨h1, h2⟩ := h
  rw [narrow, if_neg (by omega)]

theorem narrow_of_not_inWordRange {n : Int} (h : ¬ inWordRange n) : narrow n = .error .arithOverflow := by
  rw [narrow, if_pos (by simp only [inWordRange] at h; omega)]

theorem narrow_eq_ok {n : Int} {w : Word} : narrow n = .ok w ↔ inWordRange n ∧ w = wordOf n := by
  by_cases h : inWordRange n
  · simp [narrow_of_inWordRange h, h, eq_comm]
  · simp only [narrow_of_not_inWordRange h, h, false_and, reduceCtorEq]

theorem narrow_eq_error {n : Int} {c : FaultCause} : narrow n = .error c ↔ ¬ inWordRange n ∧ c = .arithOverflow := by
  by_cases h : inWordRange n
  · simp only [narrow_of_inWordRange h, h, not_true_eq_false, false_and, reduceCtorEq]
  · simp [narrow_of_not_inWordRange h, h, eq_comm]

/-- What is written reads back as the same integer (R8, R57). -/
theorem sint_wordOf {n : Int} (h : inWordRange n) : sint (wordOf n) = n := by
  obtain ⟨h1, h2⟩ := h
  simp only [sint, wordOf, BitVec.toInt_ofInt]
  rw [Int.bmod_eq_of_le] <;> omega

theorem sint_inWordRange (w : Word) : inWordRange (sint w) := by
  have h1 := BitVec.le_toInt w
  have h2 := BitVec.toInt_lt (x := w)
  simp only [inWordRange, sint]
  omega

/-- The quotient and remainder of R61, and the two fatal conditions of R62. -/
theorem divide_eq_ok {n m : Int} {p : Word × Word} :
    divide n m = .ok p ↔ m ≠ 0 ∧ inWordRange (n.tdiv m) ∧ p = (wordOf (n.tdiv m), wordOf (n - n.tdiv m * m)) := by
  obtain ⟨q, r⟩ := p
  by_cases hm : m = 0
  · simp [divide, hm]
  · by_cases h : inWordRange (n.tdiv m)
    · simp [divide, hm, narrow_of_inWordRange h, h, eq_comm]
    · simp only [divide, hm, narrow_of_not_inWordRange h, h, if_false, false_and, and_false, reduceCtorEq]

theorem divide_eq_error {n m : Int} {c : FaultCause} :
    divide n m = .error c ↔
      (m = 0 ∧ c = .divideByZero) ∨ (m ≠ 0 ∧ ¬ inWordRange (n.tdiv m) ∧ c = .arithOverflow) := by
  by_cases hm : m = 0
  · simp [divide, hm, eq_comm]
  · by_cases h : inWordRange (n.tdiv m)
    · simp only [divide, hm, narrow_of_inWordRange h, h, if_false, false_and, and_false, not_true_eq_false, or_self,
        reduceCtorEq]
    · simp [divide, hm, narrow_of_not_inWordRange h, h, eq_comm]

theorem jumpOperand_eq_ok {w : Word} {v : Nat} : jumpOperand w = .ok v ↔ 0 ≤ sint w ∧ v = (sint w).toNat := by
  unfold jumpOperand
  split
  · next h => simp; omega
  · next h => simp [eq_comm]; omega

theorem jumpOperand_eq_error {w : Word} {c : FaultCause} :
    jumpOperand w = .error c ↔ sint w < 0 ∧ c = .negativeJumpOperand := by
  unfold jumpOperand
  split
  · next h => simp [h, eq_comm]
  · next h => simp [h]

/-- A register value that is a jump target is that very word as a PC (R64). -/
theorem ofNat_sint_toNat {w : Word} (h : 0 ≤ sint w) : BitVec.ofNat 32 (sint w).toNat = w := by
  apply BitVec.eq_of_toNat_eq
  simp only [sint] at h ⊢
  have := BitVec.toInt_eq_toNat_cond w
  have hlt := w.isLt
  split at this <;> simp <;> omega

theorem forwardTarget_eq_ok {pc0 t : Word} {v : Nat} :
    forwardTarget pc0 v = .ok t ↔ pc0.toNat + 2 + v ≤ 2 ^ 32 - 1 ∧ t = BitVec.ofNat 32 (pc0.toNat + 2 + v) := by
  unfold forwardTarget
  split
  · next h => simp; omega
  · next h => simp [eq_comm]; omega

theorem forwardTarget_eq_error {pc0 : Word} {v : Nat} {c : FaultCause} :
    forwardTarget pc0 v = .error c ↔ 2 ^ 32 - 1 < pc0.toNat + 2 + v ∧ c = .pcOverflow := by
  unfold forwardTarget
  split
  · next h => simp [eq_comm]; omega
  · next h => simp; omega

theorem backwardTarget_eq_ok {pc0 t : Word} {v : Nat} :
    backwardTarget pc0 v = .ok t ↔ v ≤ pc0.toNat + 2 ∧ t = BitVec.ofNat 32 (pc0.toNat + 2 - v) := by
  unfold backwardTarget
  split
  · next h => simp; omega
  · next h => simp [eq_comm]; omega

theorem backwardTarget_eq_error {pc0 : Word} {v : Nat} {c : FaultCause} :
    backwardTarget pc0 v = .error c ↔ pc0.toNat + 2 < v ∧ c = .pcUnderflow := by
  unfold backwardTarget
  split
  · next h => simp [eq_comm]; omega
  · next h => simp; omega

/-- The immediate is the unsigned number `hi * 256 + lo` (R42). -/
theorem imm16_toNat (hi lo : Byte) : (imm16 hi lo).toNat = hi.toNat * 256 + lo.toNat := by
  have h1 := hi.isLt
  have h2 := lo.isLt
  simp only [imm16, BitVec.truncate_eq_setWidth, BitVec.toNat_setWidth, BitVec.toNat_append]
  rw [← Nat.shiftLeft_add_eq_or_of_lt h2, Nat.shiftLeft_eq, Nat.mod_eq_of_lt (by omega)]

end Sys2Proof.Machine
end

