-- ==== Sys2Proof/Laws/State.lean ====
section
/-!
SUPPORT. One lemma per field per update of State, so that no proof unfolds a record update.
-/

namespace Sys2Proof.Machine

variable (s : State) (i j : RegIdx) (w : Word) (b : Bool) (c : FaultCause) (bs : List Byte)

@[simp] theorem setReg_pc : (s.setReg i w).pc = s.pc := rfl
@[simp] theorem setReg_eqf : (s.setReg i w).eqf = s.eqf := rfl
@[simp] theorem setReg_rem : (s.setReg i w).rem = s.rem := rfl
@[simp] theorem setReg_runState : (s.setReg i w).runState = s.runState := rfl
@[simp] theorem setReg_faultCause : (s.setReg i w).faultCause = s.faultCause := rfl
@[simp] theorem setReg_prog : (s.setReg i w).prog = s.prog := rfl
@[simp] theorem setReg_x : (s.setReg i w).x = s.x.set i.val w := rfl

@[simp] theorem setPc_x : (s.setPc w).x = s.x := rfl
@[simp] theorem setPc_pc : (s.setPc w).pc = w := rfl
@[simp] theorem setPc_eqf : (s.setPc w).eqf = s.eqf := rfl
@[simp] theorem setPc_rem : (s.setPc w).rem = s.rem := rfl
@[simp] theorem setPc_runState : (s.setPc w).runState = s.runState := rfl
@[simp] theorem setPc_faultCause : (s.setPc w).faultCause = s.faultCause := rfl
@[simp] theorem setPc_prog : (s.setPc w).prog = s.prog := rfl

@[simp] theorem advance_x : s.advance.x = s.x := rfl
@[simp] theorem advance_pc : s.advance.pc = s.pc + 4 := rfl
@[simp] theorem advance_eqf : s.advance.eqf = s.eqf := rfl
@[simp] theorem advance_rem : s.advance.rem = s.rem := rfl
@[simp] theorem advance_runState : s.advance.runState = s.runState := rfl
@[simp] theorem advance_faultCause : s.advance.faultCause = s.faultCause := rfl
@[simp] theorem advance_prog : s.advance.prog = s.prog := rfl

@[simp] theorem setRem_x : (s.setRem w).x = s.x := rfl
@[simp] theorem setRem_pc : (s.setRem w).pc = s.pc := rfl
@[simp] theorem setRem_eqf : (s.setRem w).eqf = s.eqf := rfl
@[simp] theorem setRem_rem : (s.setRem w).rem = w := rfl
@[simp] theorem setRem_runState : (s.setRem w).runState = s.runState := rfl
@[simp] theorem setRem_faultCause : (s.setRem w).faultCause = s.faultCause := rfl
@[simp] theorem setRem_prog : (s.setRem w).prog = s.prog := rfl

@[simp] theorem setEqf_x : (s.setEqf b).x = s.x := rfl
@[simp] theorem setEqf_pc : (s.setEqf b).pc = s.pc := rfl
@[simp] theorem setEqf_eqf : (s.setEqf b).eqf = b := rfl
@[simp] theorem setEqf_rem : (s.setEqf b).rem = s.rem := rfl
@[simp] theorem setEqf_runState : (s.setEqf b).runState = s.runState := rfl
@[simp] theorem setEqf_faultCause : (s.setEqf b).faultCause = s.faultCause := rfl
@[simp] theorem setEqf_prog : (s.setEqf b).prog = s.prog := rfl

@[simp] theorem halt_x : s.halt.x = s.x := rfl
@[simp] theorem halt_pc : s.halt.pc = s.pc := rfl
@[simp] theorem halt_eqf : s.halt.eqf = s.eqf := rfl
@[simp] theorem halt_rem : s.halt.rem = s.rem := rfl
@[simp] theorem halt_runState : s.halt.runState = .halted := rfl
@[simp] theorem halt_faultCause : s.halt.faultCause = s.faultCause := rfl
@[simp] theorem halt_prog : s.halt.prog = s.prog := rfl

@[simp] theorem raiseFatal_x : (s.raiseFatal c).x = s.x := rfl
@[simp] theorem raiseFatal_pc : (s.raiseFatal c).pc = s.pc := rfl
@[simp] theorem raiseFatal_eqf : (s.raiseFatal c).eqf = s.eqf := rfl
@[simp] theorem raiseFatal_rem : (s.raiseFatal c).rem = s.rem := rfl
@[simp] theorem raiseFatal_runState : (s.raiseFatal c).runState = .faulted := rfl
@[simp] theorem raiseFatal_faultCause : (s.raiseFatal c).faultCause = c := rfl
@[simp] theorem raiseFatal_prog : (s.raiseFatal c).prog = s.prog := rfl

@[simp] theorem loadAtPc_x : (s.loadAtPc bs).x = s.x := rfl
@[simp] theorem loadAtPc_pc : (s.loadAtPc bs).pc = s.pc := rfl
@[simp] theorem loadAtPc_eqf : (s.loadAtPc bs).eqf = s.eqf := rfl
@[simp] theorem loadAtPc_rem : (s.loadAtPc bs).rem = s.rem := rfl
@[simp] theorem loadAtPc_runState : (s.loadAtPc bs).runState = .running := rfl
@[simp] theorem loadAtPc_faultCause : (s.loadAtPc bs).faultCause = .noFault := rfl
@[simp] theorem loadAtPc_prog : (s.loadAtPc bs).prog = s.prog.placeAll s.pc.toNat bs := rfl

/-- A register reads back as written, and a write leaves every other register alone. -/
theorem reg_setReg : (s.setReg i w).reg j = if i = j then w else s.reg j := by
  simp only [State.reg, State.setReg, Vector.getElem_set, Fin.ext_iff]

/-- Two states are equal when every field is. -/
theorem State.ext_fields {s t : State} (hx : s.x = t.x) (hpc : s.pc = t.pc) (heqf : s.eqf = t.eqf)
    (hrem : s.rem = t.rem) (hrun : s.runState = t.runState) (hcause : s.faultCause = t.faultCause)
    (hprog : s.prog = t.prog) : s = t := by
  cases s; cases t; simp_all

end Sys2Proof.Machine
end

