-- ==== Sys2Proof/Laws/Exec.lean ====
section
/-!
SUPPORT. One inversion lemma per shared form of a meaning: everything it can do when it answers a next state. Every one
of them answers a next state, and its only two endings are the commit of all its writes and the fault entry (R53).
-/

namespace Sys2Proof.Machine

/-- The end of an instruction: commit, or fault entry with nothing committed (R53). -/
theorem finish_eq_next {s t : State} {r : Except FaultCause State} :
    s.finish r = .next t ↔ r = .ok t ∨ ∃ c, r = .error c ∧ t = s.raiseFatal c := by
  cases r <;> simp [State.finish, eq_comm (a := t)]

@[simp] theorem finish_ok (s t : State) : s.finish (.ok t) = .next t := rfl
@[simp] theorem finish_error (s : State) (c : FaultCause) : s.finish (.error c) = .next (s.raiseFatal c) := rfl

theorem exactArith_eq_next {f : Int → Int → Int} {rA rB rD : OperandByte} {s t : State} :
    exactArith f rA rB rD s = .next t ↔
      (∃ a b d, rA = regByte a ∧ rB = regByte b ∧ rD = regByte d ∧
        ((inWordRange (f (sint (s.reg a)) (sint (s.reg b))) ∧
            t = (s.setReg d (wordOf (f (sint (s.reg a)) (sint (s.reg b))))).advance) ∨
          (¬ inWordRange (f (sint (s.reg a)) (sint (s.reg b))) ∧ t = s.raiseFatal .arithOverflow))) ∨
      (∃ c, operandsRRR rA rB rD = .error c ∧ t = s.raiseFatal c) := by
  cases h : operandsRRR rA rB rD with
  | error c =>
    have hno : ∀ a b d, ¬ (rA = regByte a ∧ rB = regByte b ∧ rD = regByte d) := fun a b d e => by
      rw [(operandsRRR_eq_ok (p := (a, b, d))).2 e] at h; simp at h
    simp only [exactArith, h, except_bind_error, finish_error, Host.Outcome.next.injEq, Except.error.injEq, exists_eq_left',
      eq_comm (a := t)]
    refine ⟨.inr, ?_⟩
    rintro (⟨a, b, d, ha, hb, hd, _⟩ | e)
    · exact absurd ⟨ha, hb, hd⟩ (hno a b d)
    · exact e
  | ok p =>
    obtain ⟨a, b, d⟩ := p
    obtain ⟨rfl, rfl, rfl⟩ := operandsRRR_eq_ok.1 h
    simp only [exactArith, h, except_bind_ok, regByte_inj, exists_eq_left', exists_and_left, reduceCtorEq, false_and,
      exists_false, or_false]
    by_cases hr : inWordRange (f (sint (s.reg a)) (sint (s.reg b)))
    · simp [narrow_of_inWordRange hr, hr, eq_comm (a := t)]
    · rw [narrow_of_not_inWordRange hr]
      simp only [except_bind_error, finish_error, hr, false_and, not_false_eq_true, true_and, false_or,
        Host.Outcome.next.injEq, eq_comm (a := t)]

theorem execDiv_eq_next {rA rB rD : OperandByte} {s t : State} :
    execDiv rA rB rD s = .next t ↔
      (∃ a b d, rA = regByte a ∧ rB = regByte b ∧ rD = regByte d ∧
        ((∃ q r, divide (sint (s.reg a)) (sint (s.reg b)) = .ok (q, r) ∧ t = ((s.setReg d q).setRem r).advance) ∨
          (∃ c, divide (sint (s.reg a)) (sint (s.reg b)) = .error c ∧ t = s.raiseFatal c))) ∨
      (∃ c, operandsRRR rA rB rD = .error c ∧ t = s.raiseFatal c) := by
  cases h : operandsRRR rA rB rD with
  | error c =>
    have hno : ∀ a b d, ¬ (rA = regByte a ∧ rB = regByte b ∧ rD = regByte d) := fun a b d e => by
      rw [(operandsRRR_eq_ok (p := (a, b, d))).2 e] at h; simp at h
    simp only [execDiv, h, except_bind_error, finish_error, Host.Outcome.next.injEq, Except.error.injEq, exists_eq_left',
      eq_comm (a := t)]
    refine ⟨.inr, ?_⟩
    rintro (⟨a, b, d, ha, hb, hd, _⟩ | e)
    · exact absurd ⟨ha, hb, hd⟩ (hno a b d)
    · exact e
  | ok p =>
    obtain ⟨a, b, d⟩ := p
    obtain ⟨rfl, rfl, rfl⟩ := operandsRRR_eq_ok.1 h
    simp only [execDiv, h, except_bind_ok, regByte_inj, exists_eq_left', exists_and_left, reduceCtorEq, false_and,
      exists_false, or_false]
    cases hd : divide (sint (s.reg a)) (sint (s.reg b)) with
    | error c => simp [eq_comm (a := t)]
    | ok p => obtain ⟨q, r⟩ := p; simp [eq_comm (a := t)]

theorem compareRegs_eq_next {rel : Int → Int → Bool} {rA rB p3 : OperandByte} {s t : State} :
    compareRegs rel rA rB p3 s = .next t ↔
      (∃ a b, rA = regByte a ∧ rB = regByte b ∧ p3.isSome ∧
        t = (s.setEqf (rel (sint (s.reg a)) (sint (s.reg b)))).advance) ∨
      (∃ c, operandsRR rA rB p3 = .error c ∧ t = s.raiseFatal c) := by
  cases h : operandsRR rA rB p3 with
  | error c =>
    have hno : ∀ a b, ¬ (rA = regByte a ∧ rB = regByte b ∧ p3.isSome) := fun a b e => by
      rw [(operandsRR_eq_ok (p := (a, b))).2 e] at h; simp at h
    simp only [compareRegs, h, except_bind_error, finish_error, Host.Outcome.next.injEq, Except.error.injEq,
      exists_eq_left', eq_comm (a := t)]
    refine ⟨.inr, ?_⟩
    rintro (⟨a, b, ha, hb, hp, _⟩ | e)
    · exact absurd ⟨ha, hb, hp⟩ (hno a b)
    · exact e
  | ok p =>
    obtain ⟨a, b⟩ := p
    obtain ⟨rfl, rfl, hp⟩ := operandsRR_eq_ok.1 h
    simp [compareRegs, h, regByte_inj, hp, eq_comm (a := t)]

theorem conditionalJump_eq_next {taken : Bool} {r p2 p3 : OperandByte} {s t : State} :
    conditionalJump taken r p2 p3 s = .next t ↔
      (∃ i, r = regByte i ∧
        ((taken = true ∧ 0 ≤ sint (s.reg i) ∧ t = s.setPc (s.reg i)) ∨
          (taken = true ∧ sint (s.reg i) < 0 ∧ t = s.raiseFatal .negativeJumpOperand) ∨
          (taken = false ∧ p2.isSome ∧ p3.isSome ∧ t = s.advance) ∨
          (taken = false ∧ (p2 = none ∨ p3 = none) ∧ t = s.raiseFatal .operandOutOfBounds))) ∨
      (∃ c, regOperand r = .error c ∧ t = s.raiseFatal c) := by
  cases h : regOperand r with
  | error c =>
    have hno : ∀ i, r ≠ regByte i := fun i e => by rw [regOperand_eq_ok.2 e] at h; simp at h
    simp [conditionalJump, h, hno, eq_comm (a := t)]
  | ok i =>
    obtain rfl := regOperand_eq_ok.1 h
    simp only [conditionalJump, h, except_bind_ok, regByte_inj, exists_eq_left', reduceCtorEq, false_and, exists_false,
      or_false]
    cases taken with
    | true =>
      by_cases hn : sint (s.reg i) < 0
      · have hj := jumpOperand_eq_error.2 ⟨hn, rfl⟩
        simp [hj, hn, show ¬ 0 ≤ sint (s.reg i) by omega, eq_comm (a := t)]
      · have hj := jumpOperand_eq_ok.2 ⟨Int.not_lt.1 hn, rfl⟩
        simp [hj, hn, Int.not_lt.1 hn, ofNat_sint_toNat (Int.not_lt.1 hn), eq_comm (a := t)]
    | false => cases p2 <;> cases p3 <;> simp [eq_comm (a := t)]

theorem addToReg_eq_next {k : Int} {r p2 p3 : OperandByte} {s t : State} :
    addToReg k r p2 p3 s = .next t ↔
      (∃ i, r = regByte i ∧ p2.isSome ∧ p3.isSome ∧
        ((inWordRange (sint (s.reg i) + k) ∧ t = (s.setReg i (wordOf (sint (s.reg i) + k))).advance) ∨
          (¬ inWordRange (sint (s.reg i) + k) ∧ t = s.raiseFatal .arithOverflow))) ∨
      (∃ c, operandsRPP r p2 p3 = .error c ∧ t = s.raiseFatal c) := by
  cases h : operandsRPP r p2 p3 with
  | error c =>
    have hno : ∀ i, ¬ (r = regByte i ∧ p2.isSome ∧ p3.isSome) := fun i e => by
      rw [operandsRPP_eq_ok.2 e] at h; simp at h
    simp only [addToReg, h, except_bind_error, finish_error, Host.Outcome.next.injEq, Except.error.injEq, exists_eq_left',
      eq_comm (a := t)]
    refine ⟨.inr, ?_⟩
    rintro (⟨i, hi, h2, h3, _⟩ | e)
    · exact absurd ⟨hi, h2, h3⟩ (hno i)
    · exact e
  | ok i =>
    obtain ⟨rfl, h2, h3⟩ := operandsRPP_eq_ok.1 h
    simp only [addToReg, h, except_bind_ok, regByte_inj, exists_eq_left', h2, h3, true_and, reduceCtorEq, false_and,
      exists_false, or_false]
    by_cases hr : inWordRange (sint (s.reg i) + k)
    · simp [narrow_of_inWordRange hr, hr, eq_comm (a := t)]
    · rw [narrow_of_not_inWordRange hr]
      simp only [except_bind_error, finish_error, hr, false_and, not_false_eq_true, true_and, false_or,
        Host.Outcome.next.injEq, eq_comm (a := t)]

theorem execLoad_eq_next {rD hi lo : OperandByte} {s t : State} :
    execLoad rD hi lo s = .next t ↔
      (∃ d h l, rD = regByte d ∧ hi = some h ∧ lo = some l ∧ t = (s.setReg d (imm16 h l)).advance) ∨
      (∃ c, regOperand rD = .error c ∧ t = s.raiseFatal c) ∨
      (∃ d, rD = regByte d ∧ (hi = none ∨ lo = none) ∧ t = s.raiseFatal .operandOutOfBounds) := by
  cases h : regOperand rD with
  | error c =>
    have hno : ∀ d, rD ≠ regByte d := fun d e => by rw [regOperand_eq_ok.2 e] at h; simp at h
    simp [execLoad, h, hno, eq_comm (a := t)]
  | ok d =>
    obtain rfl := regOperand_eq_ok.1 h
    cases hi <;> cases lo <;> simp [execLoad, regByte_inj, eq_comm (a := t)]

theorem execJmp_eq_next {r p2 p3 : OperandByte} {s t : State} :
    execJmp r p2 p3 s = .next t ↔
      (∃ i, r = regByte i ∧
        ((0 ≤ sint (s.reg i) ∧ t = s.setPc (s.reg i)) ∨
          (sint (s.reg i) < 0 ∧ t = s.raiseFatal .negativeJumpOperand))) ∨
      (∃ c, regOperand r = .error c ∧ t = s.raiseFatal c) := by
  cases h : regOperand r with
  | error c =>
    have hno : ∀ i, r ≠ regByte i := fun i e => by rw [regOperand_eq_ok.2 e] at h; simp at h
    simp [execJmp, h, hno, eq_comm (a := t)]
  | ok i =>
    obtain rfl := regOperand_eq_ok.1 h
    by_cases hn : sint (s.reg i) < 0
    · have hj := jumpOperand_eq_error.2 ⟨hn, rfl⟩
      simp [execJmp, hj, hn, regByte_inj, show ¬ 0 ≤ sint (s.reg i) by omega, eq_comm (a := t)]
    · have hj := jumpOperand_eq_ok.2 ⟨Int.not_lt.1 hn, rfl⟩
      simp [execJmp, hj, hn, regByte_inj, Int.not_lt.1 hn, ofNat_sint_toNat (Int.not_lt.1 hn), eq_comm (a := t)]

/-- What the two relative jumps share: a target computed from the PC and the offset, or a fatal condition. -/
theorem relativeJump_eq_next {target : Word → Nat → Except FaultCause Word} {r : OperandByte} {s t : State} :
    (s.finish do
        let i ← regOperand r
        let v ← jumpOperand (s.reg i)
        let u ← target s.pc v
        pure (s.setPc u)) = .next t ↔
      (∃ i, r = regByte i ∧
        ((0 ≤ sint (s.reg i) ∧ ∃ u, target s.pc (sint (s.reg i)).toNat = .ok u ∧ t = s.setPc u) ∨
          (0 ≤ sint (s.reg i) ∧ ∃ c, target s.pc (sint (s.reg i)).toNat = .error c ∧ t = s.raiseFatal c) ∨
          (sint (s.reg i) < 0 ∧ t = s.raiseFatal .negativeJumpOperand))) ∨
      (∃ c, regOperand r = .error c ∧ t = s.raiseFatal c) := by
  cases h : regOperand r with
  | error c =>
    have hno : ∀ i, r ≠ regByte i := fun i e => by rw [regOperand_eq_ok.2 e] at h; simp at h
    simp [hno, eq_comm (a := t)]
  | ok i =>
    obtain rfl := regOperand_eq_ok.1 h
    by_cases hn : sint (s.reg i) < 0
    · have hj := jumpOperand_eq_error.2 ⟨hn, rfl⟩
      simp [hj, hn, regByte_inj, show ¬ 0 ≤ sint (s.reg i) by omega, eq_comm (a := t)]
    · have hj := jumpOperand_eq_ok.2 ⟨Int.not_lt.1 hn, rfl⟩
      cases ht : target s.pc (sint (s.reg i)).toNat <;>
        simp [hj, hn, ht, regByte_inj, Int.not_lt.1 hn, eq_comm (a := t)]

theorem execHlt_eq_next {p1 p2 p3 : OperandByte} {s t : State} :
    execHlt p1 p2 p3 s = .next t ↔
      (p1.isSome ∧ p2.isSome ∧ p3.isSome ∧ t = s.advance.halt) ∨
      ((p1 = none ∨ p2 = none ∨ p3 = none) ∧ t = s.raiseFatal .operandOutOfBounds) := by
  cases p1 <;> cases p2 <;> cases p3 <;> simp [execHlt, eq_comm (a := t)]

@[simp] theorem execIgl_eq (op : Byte) (u1 u2 u3 : OperandByte) (s : State) :
    execIgl op u1 u2 u3 s = .next s.advance := rfl

/-- The cycle around an instruction's rule, by the run state (R51). -/
theorem step_of_halted {s : State} (h : s.runState = .halted) : step s = .next s := by
  simp [step, executionCycle, h]

theorem step_of_faulted {s : State} (h : s.runState = .faulted) : step s = .next s := by
  simp [step, executionCycle, h]

/-- A running machine, by what the fetch at the PC finds (R51). -/
theorem step_of_running {s : State} (h : s.runState = .running) (hwf : s.prog.wf) :
    step s = match s.prog.read s.pc.toNat with
      | none => .next s.halt
      | some op => exec (assemble op (s.prog.read (s.pc.toNat + 1)) (s.prog.read (s.pc.toNat + 2))
          (s.prog.read (s.pc.toNat + 3))) s := by
  simp only [step, executionCycle, h, State.fetchInstr, decode_fetchBytes hwf]
  cases s.prog.read s.pc.toNat <;> rfl

end Sys2Proof.Machine
end

