-- ==== Sys2Proof/Laws/Effect.lean ====
section
/-!
SUPPORT. Everything an instruction can do, said once for the whole instruction set: when it answers a next state, either
its own effect was committed (`Effect`), or a fault was taken and nothing else changed.
-/

namespace Sys2Proof.Machine

/-- `Effect i s t`: instruction `i`, begun in `s`, commits its writes and leaves `t`. One constructor per instruction, two
for a conditional jump, with the conditions under which it does. -/
inductive Effect : Instr → State → State → Prop
  | load (d : RegIdx) (h l : Byte) (s : State) :
      Effect (.load (regByte d) (some h) (some l)) s (s.setReg d (imm16 h l)).advance
  | add (a b d : RegIdx) (s : State) : inWordRange (sint (s.reg a) + sint (s.reg b)) →
      Effect (.add (regByte a) (regByte b) (regByte d)) s
        (s.setReg d (wordOf (sint (s.reg a) + sint (s.reg b)))).advance
  | sub (a b d : RegIdx) (s : State) : inWordRange (sint (s.reg a) - sint (s.reg b)) →
      Effect (.sub (regByte a) (regByte b) (regByte d)) s
        (s.setReg d (wordOf (sint (s.reg a) - sint (s.reg b)))).advance
  | mul (a b d : RegIdx) (s : State) : inWordRange (sint (s.reg a) * sint (s.reg b)) →
      Effect (.mul (regByte a) (regByte b) (regByte d)) s
        (s.setReg d (wordOf (sint (s.reg a) * sint (s.reg b)))).advance
  | div (a b d : RegIdx) (s : State) (q r : Word) : divide (sint (s.reg a)) (sint (s.reg b)) = .ok (q, r) →
      Effect (.div (regByte a) (regByte b) (regByte d)) s ((s.setReg d q).setRem r).advance
  | jmp (r : RegIdx) (p q : OperandByte) (s : State) : 0 ≤ sint (s.reg r) →
      Effect (.jmp (regByte r) p q) s (s.setPc (s.reg r))
  | jmpf (r : RegIdx) (p q : OperandByte) (s : State) (u : Word) : 0 ≤ sint (s.reg r) →
      forwardTarget s.pc (sint (s.reg r)).toNat = .ok u → Effect (.jmpf (regByte r) p q) s (s.setPc u)
  | jmpb (r : RegIdx) (p q : OperandByte) (s : State) (u : Word) : 0 ≤ sint (s.reg r) →
      backwardTarget s.pc (sint (s.reg r)).toNat = .ok u → Effect (.jmpb (regByte r) p q) s (s.setPc u)
  | eq (a b : RegIdx) (p : Byte) (s : State) : Effect (.eq (regByte a) (regByte b) (some p)) s
      (s.setEqf (relEq (sint (s.reg a)) (sint (s.reg b)))).advance
  | neq (a b : RegIdx) (p : Byte) (s : State) : Effect (.neq (regByte a) (regByte b) (some p)) s
      (s.setEqf (relNeq (sint (s.reg a)) (sint (s.reg b)))).advance
  | gt (a b : RegIdx) (p : Byte) (s : State) : Effect (.gt (regByte a) (regByte b) (some p)) s
      (s.setEqf (relGt (sint (s.reg a)) (sint (s.reg b)))).advance
  | lt (a b : RegIdx) (p : Byte) (s : State) : Effect (.lt (regByte a) (regByte b) (some p)) s
      (s.setEqf (relLt (sint (s.reg a)) (sint (s.reg b)))).advance
  | gtq (a b : RegIdx) (p : Byte) (s : State) : Effect (.gtq (regByte a) (regByte b) (some p)) s
      (s.setEqf (relGtq (sint (s.reg a)) (sint (s.reg b)))).advance
  | ltq (a b : RegIdx) (p : Byte) (s : State) : Effect (.ltq (regByte a) (regByte b) (some p)) s
      (s.setEqf (relLtq (sint (s.reg a)) (sint (s.reg b)))).advance
  | jeqTaken (r : RegIdx) (p q : OperandByte) (s : State) : s.eqf = true → 0 ≤ sint (s.reg r) →
      Effect (.jeq (regByte r) p q) s (s.setPc (s.reg r))
  | jeqUntaken (r : RegIdx) (p q : Byte) (s : State) : s.eqf = false →
      Effect (.jeq (regByte r) (some p) (some q)) s s.advance
  | jneqTaken (r : RegIdx) (p q : OperandByte) (s : State) : s.eqf = false → 0 ≤ sint (s.reg r) →
      Effect (.jneq (regByte r) p q) s (s.setPc (s.reg r))
  | jneqUntaken (r : RegIdx) (p q : Byte) (s : State) : s.eqf = true →
      Effect (.jneq (regByte r) (some p) (some q)) s s.advance
  | inc (r : RegIdx) (p q : Byte) (s : State) : inWordRange (sint (s.reg r) + 1) →
      Effect (.inc (regByte r) (some p) (some q)) s (s.setReg r (wordOf (sint (s.reg r) + 1))).advance
  | dec (r : RegIdx) (p q : Byte) (s : State) : inWordRange (sint (s.reg r) + -1) →
      Effect (.dec (regByte r) (some p) (some q)) s (s.setReg r (wordOf (sint (s.reg r) + -1))).advance
  | hlt (p q r : Byte) (s : State) : Effect (.hlt (some p) (some q) (some r)) s s.advance.halt
  | igl (op : Byte) (p q r : OperandByte) (s : State) : Effect (.igl op p q r) s s.advance

/-- A fault taken in `s`: its cause is recorded, and is not NONE. -/
def FaultEntry (s t : State) : Prop := ∃ c, c ≠ .noFault ∧ t = s.raiseFatal c

theorem faultEntry_of {s : State} {c : FaultCause} (h : c ≠ .noFault) : FaultEntry s (s.raiseFatal c) := ⟨c, h, rfl⟩

theorem regOperand_error_ne {o : OperandByte} {c : FaultCause} (h : regOperand o = .error c) : c ≠ .noFault := by
  rcases regOperand_eq_error.1 h with ⟨_, rfl⟩ | ⟨_, _, _, rfl⟩ <;> simp

theorem pad_error_ne {o : OperandByte} {c : FaultCause} (h : pad o = .error c) : c ≠ .noFault := by
  rcases pad_eq_error.1 h with ⟨_, rfl⟩; simp

theorem operandsRRR_error_ne {rA rB rD : OperandByte} {c : FaultCause} (h : operandsRRR rA rB rD = .error c) :
    c ≠ .noFault := by
  rcases operandsRRR_eq_error.1 h with h | ⟨_, _, h | ⟨_, _, h⟩⟩ <;> exact regOperand_error_ne h

theorem operandsRR_error_ne {rA rB p3 : OperandByte} {c : FaultCause} (h : operandsRR rA rB p3 = .error c) :
    c ≠ .noFault := by
  rcases operandsRR_eq_error.1 h with h | ⟨_, _, h | ⟨_, _, h⟩⟩
  · exact regOperand_error_ne h
  · exact regOperand_error_ne h
  · exact pad_error_ne h

theorem operandsRPP_error_ne {r p2 p3 : OperandByte} {c : FaultCause} (h : operandsRPP r p2 p3 = .error c) :
    c ≠ .noFault := by
  rcases operandsRPP_eq_error.1 h with h | ⟨_, _, h | ⟨_, h⟩⟩
  · exact regOperand_error_ne h
  · exact pad_error_ne h
  · exact pad_error_ne h

theorem exactArith_cases {f : Int → Int → Int} {rA rB rD : OperandByte} {s t : State}
    (h : exactArith f rA rB rD s = .next t) :
    (∃ a b d, rA = regByte a ∧ rB = regByte b ∧ rD = regByte d ∧ inWordRange (f (sint (s.reg a)) (sint (s.reg b))) ∧
      t = (s.setReg d (wordOf (f (sint (s.reg a)) (sint (s.reg b))))).advance) ∨ FaultEntry s t := by
  rcases exactArith_eq_next.1 h with ⟨a, b, d, ha, hb, hd, ⟨hr, rfl⟩ | ⟨_, rfl⟩⟩ | ⟨c, hc, rfl⟩
  · exact .inl ⟨a, b, d, ha, hb, hd, hr, rfl⟩
  · exact .inr (faultEntry_of (by simp))
  · exact .inr (faultEntry_of (operandsRRR_error_ne hc))

theorem compareRegs_cases {rel : Int → Int → Bool} {rA rB p3 : OperandByte} {s t : State}
    (h : compareRegs rel rA rB p3 s = .next t) :
    (∃ a b p, rA = regByte a ∧ rB = regByte b ∧ p3 = some p ∧
      t = (s.setEqf (rel (sint (s.reg a)) (sint (s.reg b)))).advance) ∨ FaultEntry s t := by
  rcases compareRegs_eq_next.1 h with ⟨a, b, ha, hb, hp, rfl⟩ | ⟨c, hc, rfl⟩
  · obtain ⟨p, rfl⟩ := Option.isSome_iff_exists.1 hp
    exact .inl ⟨a, b, p, ha, hb, rfl, rfl⟩
  · exact .inr (faultEntry_of (operandsRR_error_ne hc))

theorem addToReg_cases {k : Int} {r p2 p3 : OperandByte} {s t : State} (h : addToReg k r p2 p3 s = .next t) :
    (∃ i p q, r = regByte i ∧ p2 = some p ∧ p3 = some q ∧ inWordRange (sint (s.reg i) + k) ∧
      t = (s.setReg i (wordOf (sint (s.reg i) + k))).advance) ∨ FaultEntry s t := by
  rcases addToReg_eq_next.1 h with ⟨i, hi, h2, h3, ⟨hr, rfl⟩ | ⟨_, rfl⟩⟩ | ⟨c, hc, rfl⟩
  · obtain ⟨p, rfl⟩ := Option.isSome_iff_exists.1 h2
    obtain ⟨q, rfl⟩ := Option.isSome_iff_exists.1 h3
    exact .inl ⟨i, p, q, hi, rfl, rfl, hr, rfl⟩
  · exact .inr (faultEntry_of (by simp))
  · exact .inr (faultEntry_of (operandsRPP_error_ne hc))

theorem conditionalJump_cases {taken : Bool} {r p2 p3 : OperandByte} {s t : State}
    (h : conditionalJump taken r p2 p3 s = .next t) :
    (∃ i, r = regByte i ∧ taken = true ∧ 0 ≤ sint (s.reg i) ∧ t = s.setPc (s.reg i)) ∨
      (∃ i p q, r = regByte i ∧ p2 = some p ∧ p3 = some q ∧ taken = false ∧ t = s.advance) ∨ FaultEntry s t := by
  rcases conditionalJump_eq_next.1 h with
    ⟨i, hi, ⟨ht, h0, rfl⟩ | ⟨_, _, rfl⟩ | ⟨ht, h2, h3, rfl⟩ | ⟨_, _, rfl⟩⟩ | ⟨c, hc, rfl⟩
  · exact .inl ⟨i, hi, ht, h0, rfl⟩
  · exact .inr (.inr (faultEntry_of (by simp)))
  · obtain ⟨p, rfl⟩ := Option.isSome_iff_exists.1 h2
    obtain ⟨q, rfl⟩ := Option.isSome_iff_exists.1 h3
    exact .inr (.inl ⟨i, p, q, hi, rfl, rfl, ht, rfl⟩)
  · exact .inr (.inr (faultEntry_of (by simp)))
  · exact .inr (.inr (faultEntry_of (regOperand_error_ne hc)))

/-- What an instruction does, whichever it is and in whatever state: its effect, or a fault entry. -/
theorem exec_cases {i : Instr} {s t : State} (h : exec i s = .next t) : Effect i s t ∨ FaultEntry s t := by
  cases i with
  | load rD hi lo =>
    rcases execLoad_eq_next.1 h with ⟨d, v, l, rfl, rfl, rfl, rfl⟩ | ⟨c, hc, rfl⟩ | ⟨d, rfl, _, rfl⟩
    · exact .inl (.load d v l s)
    · exact .inr (faultEntry_of (regOperand_error_ne hc))
    · exact .inr (faultEntry_of (by simp))
  | add rA rB rD =>
    rcases exactArith_cases h with ⟨a, b, d, rfl, rfl, rfl, hr, rfl⟩ | hf
    · exact .inl (.add a b d s hr)
    · exact .inr hf
  | sub rA rB rD =>
    rcases exactArith_cases h with ⟨a, b, d, rfl, rfl, rfl, hr, rfl⟩ | hf
    · exact .inl (.sub a b d s hr)
    · exact .inr hf
  | mul rA rB rD =>
    rcases exactArith_cases h with ⟨a, b, d, rfl, rfl, rfl, hr, rfl⟩ | hf
    · exact .inl (.mul a b d s hr)
    · exact .inr hf
  | div rA rB rD =>
    rcases execDiv_eq_next.1 h with ⟨a, b, d, rfl, rfl, rfl, ⟨q, r, hq, rfl⟩ | ⟨c, hc, rfl⟩⟩ | ⟨c, hc, rfl⟩
    · exact .inl (.div a b d s q r hq)
    · rcases divide_eq_error.1 hc with ⟨_, rfl⟩ | ⟨_, _, rfl⟩ <;> exact .inr (faultEntry_of (by simp))
    · exact .inr (faultEntry_of (operandsRRR_error_ne hc))
  | jmp r p2 p3 =>
    rcases (execJmp_eq_next (p2 := p2) (p3 := p3)).1 h with ⟨i, rfl, ⟨h0, rfl⟩ | ⟨_, rfl⟩⟩ | ⟨c, hc, rfl⟩
    · exact .inl (.jmp i p2 p3 s h0)
    · exact .inr (faultEntry_of (by simp))
    · exact .inr (faultEntry_of (regOperand_error_ne hc))
  | jmpf r p2 p3 =>
    rcases (relativeJump_eq_next (target := forwardTarget)).1 h with
      ⟨i, rfl, ⟨h0, u, hu, rfl⟩ | ⟨_, c, hc, rfl⟩ | ⟨_, rfl⟩⟩ | ⟨c, hc, rfl⟩
    · exact .inl (.jmpf i p2 p3 s u h0 hu)
    · rcases forwardTarget_eq_error.1 hc with ⟨_, rfl⟩; exact .inr (faultEntry_of (by simp))
    · exact .inr (faultEntry_of (by simp))
    · exact .inr (faultEntry_of (regOperand_error_ne hc))
  | jmpb r p2 p3 =>
    rcases (relativeJump_eq_next (target := backwardTarget)).1 h with
      ⟨i, rfl, ⟨h0, u, hu, rfl⟩ | ⟨_, c, hc, rfl⟩ | ⟨_, rfl⟩⟩ | ⟨c, hc, rfl⟩
    · exact .inl (.jmpb i p2 p3 s u h0 hu)
    · rcases backwardTarget_eq_error.1 hc with ⟨_, rfl⟩; exact .inr (faultEntry_of (by simp))
    · exact .inr (faultEntry_of (by simp))
    · exact .inr (faultEntry_of (regOperand_error_ne hc))
  | eq rA rB p3 =>
    rcases compareRegs_cases h with ⟨a, b, p, rfl, rfl, rfl, rfl⟩ | hf
    · exact .inl (.eq a b p s)
    · exact .inr hf
  | neq rA rB p3 =>
    rcases compareRegs_cases h with ⟨a, b, p, rfl, rfl, rfl, rfl⟩ | hf
    · exact .inl (.neq a b p s)
    · exact .inr hf
  | gt rA rB p3 =>
    rcases compareRegs_cases h with ⟨a, b, p, rfl, rfl, rfl, rfl⟩ | hf
    · exact .inl (.gt a b p s)
    · exact .inr hf
  | lt rA rB p3 =>
    rcases compareRegs_cases h with ⟨a, b, p, rfl, rfl, rfl, rfl⟩ | hf
    · exact .inl (.lt a b p s)
    · exact .inr hf
  | gtq rA rB p3 =>
    rcases compareRegs_cases h with ⟨a, b, p, rfl, rfl, rfl, rfl⟩ | hf
    · exact .inl (.gtq a b p s)
    · exact .inr hf
  | ltq rA rB p3 =>
    rcases compareRegs_cases h with ⟨a, b, p, rfl, rfl, rfl, rfl⟩ | hf
    · exact .inl (.ltq a b p s)
    · exact .inr hf
  | jeq r p2 p3 =>
    rcases conditionalJump_cases h with ⟨i, rfl, ht, h0, rfl⟩ | ⟨i, p, q, rfl, rfl, rfl, ht, rfl⟩ | hf
    · exact .inl (.jeqTaken i p2 p3 s ht h0)
    · exact .inl (.jeqUntaken i p q s ht)
    · exact .inr hf
  | jneq r p2 p3 =>
    rcases conditionalJump_cases h with ⟨i, rfl, ht, h0, rfl⟩ | ⟨i, p, q, rfl, rfl, rfl, ht, rfl⟩ | hf
    · exact .inl (.jneqTaken i p2 p3 s (by simpa using ht) h0)
    · exact .inl (.jneqUntaken i p q s (by simpa using ht))
    · exact .inr hf
  | inc r p2 p3 =>
    rcases addToReg_cases h with ⟨i, p, q, rfl, rfl, rfl, hr, rfl⟩ | hf
    · exact .inl (.inc i p q s hr)
    · exact .inr hf
  | dec r p2 p3 =>
    rcases addToReg_cases h with ⟨i, p, q, rfl, rfl, rfl, hr, rfl⟩ | hf
    · exact .inl (.dec i p q s hr)
    · exact .inr hf
  | hlt p1 p2 p3 =>
    rcases execHlt_eq_next.1 h with ⟨h1, h2, h3, rfl⟩ | ⟨_, rfl⟩
    · obtain ⟨p, rfl⟩ := Option.isSome_iff_exists.1 h1
      obtain ⟨q, rfl⟩ := Option.isSome_iff_exists.1 h2
      obtain ⟨r, rfl⟩ := Option.isSome_iff_exists.1 h3
      exact .inl (.hlt p q r s)
    · exact .inr (faultEntry_of (by simp))
  | igl op u1 u2 u3 =>
    simp only [exec, execIgl_eq, Host.Outcome.next.injEq] at h
    subst h
    exact .inl (.igl op u1 u2 u3 s)

/-- An effect is what the instruction's meaning answers. -/
theorem Effect.exec_eq {i : Instr} {s t : State} (h : Effect i s t) : exec i s = .next t := by
  cases h with
  | load => exact execLoad_eq_next.2 (.inl ⟨_, _, _, rfl, rfl, rfl, rfl⟩)
  | add a b d _ hr => exact exactArith_eq_next.2 (.inl ⟨a, b, d, rfl, rfl, rfl, .inl ⟨hr, rfl⟩⟩)
  | sub a b d _ hr => exact exactArith_eq_next.2 (.inl ⟨a, b, d, rfl, rfl, rfl, .inl ⟨hr, rfl⟩⟩)
  | mul a b d _ hr => exact exactArith_eq_next.2 (.inl ⟨a, b, d, rfl, rfl, rfl, .inl ⟨hr, rfl⟩⟩)
  | div a b d _ q r hq => exact execDiv_eq_next.2 (.inl ⟨a, b, d, rfl, rfl, rfl, .inl ⟨q, r, hq, rfl⟩⟩)
  | jmp r p q _ h0 => exact (execJmp_eq_next (p2 := p) (p3 := q)).2 (.inl ⟨r, rfl, .inl ⟨h0, rfl⟩⟩)
  | jmpf r _ _ _ u h0 hu => exact relativeJump_eq_next.2 (.inl ⟨r, rfl, .inl ⟨h0, u, hu, rfl⟩⟩)
  | jmpb r _ _ _ u h0 hu => exact relativeJump_eq_next.2 (.inl ⟨r, rfl, .inl ⟨h0, u, hu, rfl⟩⟩)
  | eq => exact compareRegs_eq_next.2 (.inl ⟨_, _, rfl, rfl, rfl, rfl⟩)
  | neq => exact compareRegs_eq_next.2 (.inl ⟨_, _, rfl, rfl, rfl, rfl⟩)
  | gt => exact compareRegs_eq_next.2 (.inl ⟨_, _, rfl, rfl, rfl, rfl⟩)
  | lt => exact compareRegs_eq_next.2 (.inl ⟨_, _, rfl, rfl, rfl, rfl⟩)
  | gtq => exact compareRegs_eq_next.2 (.inl ⟨_, _, rfl, rfl, rfl, rfl⟩)
  | ltq => exact compareRegs_eq_next.2 (.inl ⟨_, _, rfl, rfl, rfl, rfl⟩)
  | jeqTaken r _ _ _ ht h0 => exact conditionalJump_eq_next.2 (.inl ⟨r, rfl, .inl ⟨ht, h0, rfl⟩⟩)
  | jeqUntaken r _ _ _ ht =>
    exact conditionalJump_eq_next.2 (.inl ⟨r, rfl, .inr (.inr (.inl ⟨ht, rfl, rfl, rfl⟩))⟩)
  | jneqTaken r _ _ _ ht h0 => exact conditionalJump_eq_next.2 (.inl ⟨r, rfl, .inl ⟨by simp [ht], h0, rfl⟩⟩)
  | jneqUntaken r _ _ _ ht =>
    exact conditionalJump_eq_next.2 (.inl ⟨r, rfl, .inr (.inr (.inl ⟨by simp [ht], rfl, rfl, rfl⟩))⟩)
  | inc r _ _ _ hr => exact addToReg_eq_next.2 (.inl ⟨r, rfl, rfl, rfl, .inl ⟨hr, rfl⟩⟩)
  | dec r _ _ _ hr => exact addToReg_eq_next.2 (.inl ⟨r, rfl, rfl, rfl, .inl ⟨hr, rfl⟩⟩)
  | hlt => exact execHlt_eq_next.2 (.inl ⟨rfl, rfl, rfl, rfl⟩)
  | igl => rfl

end Sys2Proof.Machine
end

