-- ==== Sys2Proof/Laws/HostInterface.lean ====
section
/-!
SUPPORT. The host's operations: what each leaves the state to be.
-/

namespace Sys2Proof.Machine

/-- PROG_CAPACITY lies where R7 says. -/
theorem progCapacity_bounds : 1 ≤ Config.progCapacity ∧ Config.progCapacity ≤ 2 ^ 31 := by
  have := Config.capacityLessOne.isLt
  simp only [Config.progCapacity]
  omega

/-- Everything `append_byte` can do (R29). -/
theorem appendByteWithin_cases (cap : Nat) (b : Byte) (s : State) :
    (s.len = cap ∧ s.appendByteWithin cap b = (.bufferFull, s)) ∨
      (s.len ≠ cap ∧ s.appendByteWithin cap b = (.ok, { s with prog := s.prog.append b })) := by
  unfold State.appendByteWithin
  split
  · next h => exact .inl ⟨h, rfl⟩
  · next h => exact .inr ⟨h, rfl⟩

theorem afterStep_of_step {s t : State} (h : step s = .next t) : s.afterStep = t := by
  simp [State.afterStep, h]

theorem afterSteps_succ (n : Nat) (s : State) : s.afterSteps (n + 1) = (s.afterSteps n).afterStep := by
  induction n generalizing s with
  | zero => rfl
  | succ n ih => exact ih s.afterStep

theorem afterOps_append (s : State) (ops more : List HostOp) :
    s.afterOps (ops ++ more) = (s.afterOps ops).afterOps more := by
  induction ops generalizing s with
  | nil => rfl
  | cons op ops ih => exact ih (s.afterOp op)

/-- An induction over the host's operations, packaged once: what one operation keeps, any sequence keeps. -/
theorem afterOps_keeps {P : State → Prop} (keep : ∀ s op, P s → P (s.afterOp op)) {s : State} (h : P s)
    (ops : List HostOp) : P (s.afterOps ops) := by
  induction ops generalizing s with
  | nil => exact h
  | cons op ops ih => exact ih (keep s op h)

end Sys2Proof.Machine
end

