-- ==== Sys2Proof/Laws/PerInstr.lean ====
section
/-!
SUPPORT. What holds of every instruction as syntax, one lemma per constructor.
-/

namespace Sys2Proof.Laws.FourBytes

/-- Every complete instruction is encoded in exactly four bytes, the first its opcode byte (R40). -/
def Statement (i : Instr) : Prop := i.complete = true → (encode i).length = 4 ∧ (encode i).head? = some (opcodeByte i)

theorem of_operandBytes {i : Instr} : Statement i := by
  intro h
  simp only [Instr.complete, Bool.and_eq_true, Option.isSome_iff_exists] at h
  obtain ⟨⟨⟨a, ha⟩, b, hb⟩, c, hc⟩ := h
  simp [encode, ha, hb, hc]

theorem load (rD hi lo : OperandByte) : Statement (.load rD hi lo) := of_operandBytes
theorem add (rA rB rD : OperandByte) : Statement (.add rA rB rD) := of_operandBytes
theorem sub (rA rB rD : OperandByte) : Statement (.sub rA rB rD) := of_operandBytes
theorem mul (rA rB rD : OperandByte) : Statement (.mul rA rB rD) := of_operandBytes
theorem div (rA rB rD : OperandByte) : Statement (.div rA rB rD) := of_operandBytes
theorem jmp (r p2 p3 : OperandByte) : Statement (.jmp r p2 p3) := of_operandBytes
theorem jmpf (r p2 p3 : OperandByte) : Statement (.jmpf r p2 p3) := of_operandBytes
theorem jmpb (r p2 p3 : OperandByte) : Statement (.jmpb r p2 p3) := of_operandBytes
theorem eq (rA rB p3 : OperandByte) : Statement (.eq rA rB p3) := of_operandBytes
theorem neq (rA rB p3 : OperandByte) : Statement (.neq rA rB p3) := of_operandBytes
theorem gt (rA rB p3 : OperandByte) : Statement (.gt rA rB p3) := of_operandBytes
theorem lt (rA rB p3 : OperandByte) : Statement (.lt rA rB p3) := of_operandBytes
theorem gtq (rA rB p3 : OperandByte) : Statement (.gtq rA rB p3) := of_operandBytes
theorem ltq (rA rB p3 : OperandByte) : Statement (.ltq rA rB p3) := of_operandBytes
theorem jeq (r p2 p3 : OperandByte) : Statement (.jeq r p2 p3) := of_operandBytes
theorem jneq (r p2 p3 : OperandByte) : Statement (.jneq r p2 p3) := of_operandBytes
theorem inc (r p2 p3 : OperandByte) : Statement (.inc r p2 p3) := of_operandBytes
theorem dec (r p2 p3 : OperandByte) : Statement (.dec r p2 p3) := of_operandBytes
theorem hlt (p1 p2 p3 : OperandByte) : Statement (.hlt p1 p2 p3) := of_operandBytes
theorem igl (op : Byte) (u1 u2 u3 : OperandByte) : Statement (.igl op u1 u2 u3) := of_operandBytes

end Sys2Proof.Laws.FourBytes
end

