-- ==== Sys2Proof/Tests/Slice0.lean ====
section
/-!
SUPPORT. Tests of one step each, expected results from spec/95_test_vectors.md (the vector's name is in the theorem's);
the smoke test of WellFormed; a decoding of each constructor by a word written out from spec/30_encoding.md; and, for
every statement with hypotheses, a state and operands that meet all of them.
-/

open Sys2Proof Sys2Proof.Machine

namespace Sys2Proof.Tests

/-! ### Helpers -/

/-- A program buffer of these bytes. -/
def bufferOf (bs : List Byte) : Memory := bs.foldl Memory.append []

/-- A running machine with the given PC, flag and registers, whose buffer holds `bytes` at the PC, and 0x12 before
(spec/95_test_vectors.md, conventions). -/
def machine (pc : Nat) (eqf : Bool) (regs : List (RegIdx × Int)) (bytes : List Byte) : State :=
  regs.foldl (fun s r => s.setReg r.1 (wordOf r.2))
    { State.reset with pc := BitVec.ofNat 32 pc, eqf := eqf, prog := bufferOf (List.replicate pc 0x12 ++ bytes) }

/-- What a vector shows of one step: its result, the PC, some registers, EQF and REM. -/
def observe (s : State) (regs : List RegIdx) : StepResult × Nat × List Int × Bool × Int :=
  (s.afterStep.result, s.afterStep.pc.toNat, regs.map (fun i => sint (s.afterStep.reg i)), s.afterStep.eqf,
    sint s.afterStep.rem)

/-! ### WellFormed refuses what has no encoding, and accepts what has one -/

theorem test_wellFormed_refuses_second_byte_without_first : WellFormed (.add none (some 1) none) = false := by decide
theorem test_wellFormed_refuses_third_byte_without_second :
    WellFormed (.load (some 1) none (some 3)) = false := by decide
theorem test_wellFormed_refuses_assigned_opcode_as_igl : WellFormed (.igl 17 none none none) = false := by decide
theorem test_wellFormed_refuses_hlt_opcode_as_igl : WellFormed (.igl 255 none none none) = false := by decide
theorem test_wellFormed_accepts_truncated : WellFormed (.jmp (some 200) none none) = true := by decide

/-! ### Decoding, one word of each constructor (R41, R45, R49) -/

theorem test_decode_load : decode [0x00, 0x1F, 0x12, 0x34] = some (.load (some 31) (some 0x12) (some 0x34)) := by decide
theorem test_decode_add : decode [0x01, 0x00, 0x01, 0x02] = some (.add (some 0) (some 1) (some 2)) := by decide
theorem test_decode_sub : decode [0x02, 0x03, 0x04, 0x05] = some (.sub (some 3) (some 4) (some 5)) := by decide
theorem test_decode_mul : decode [0x03, 0x02, 0x01, 0x04] = some (.mul (some 2) (some 1) (some 4)) := by decide
theorem test_decode_div : decode [0x04, 0x00, 0x01, 0x63] = some (.div (some 0) (some 1) (some 99)) := by decide
theorem test_decode_jmp : decode [0x05, 0x07] = some (.jmp (some 7) none none) := by decide
theorem test_decode_jmpf : decode [0x06, 0x03, 0x00, 0x00] = some (.jmpf (some 3) (some 0) (some 0)) := by decide
theorem test_decode_jmpb : decode [0x07, 0x02, 0x00, 0x00] = some (.jmpb (some 2) (some 0) (some 0)) := by decide
theorem test_decode_eq : decode [0x08, 0x00, 0x01, 0x09] = some (.eq (some 0) (some 1) (some 9)) := by decide
theorem test_decode_neq : decode [0x09, 0x00, 0x02, 0x00] = some (.neq (some 0) (some 2) (some 0)) := by decide
theorem test_decode_gt : decode [0x0A, 0x00, 0x01, 0x00] = some (.gt (some 0) (some 1) (some 0)) := by decide
theorem test_decode_lt : decode [0x0B, 0x01, 0x00, 0x00] = some (.lt (some 1) (some 0) (some 0)) := by decide
theorem test_decode_gtq : decode [0x0C, 0x00, 0x01] = some (.gtq (some 0) (some 1) none) := by decide
theorem test_decode_ltq : decode [0x0D, 0x1E, 0x1F, 0x00] = some (.ltq (some 30) (some 31) (some 0)) := by decide
theorem test_decode_jeq : decode [0x0E, 0x03, 0x00, 0x00] = some (.jeq (some 3) (some 0) (some 0)) := by decide
theorem test_decode_jneq : decode [0x0F, 0x04, 0x01, 0x02, 0xFF, 0xFF] = some (.jneq (some 4) (some 1) (some 2)) := by decide
theorem test_decode_inc : decode [0x10, 0x02, 0x00, 0x00] = some (.inc (some 2) (some 0) (some 0)) := by decide
theorem test_decode_dec : decode [0x11, 0x20, 0x00, 0x00] = some (.dec (some 32) (some 0) (some 0)) := by decide
theorem test_decode_hlt : decode [0xFF, 0x12, 0x34, 0x56] = some (.hlt (some 0x12) (some 0x34) (some 0x56)) := by decide
theorem test_decode_igl : decode [0xFE, 0xFF, 0xFF, 0xFF] = some (.igl 0xFE (some 0xFF) (some 0xFF) (some 0xFF)) := by decide

/-! ### One step of each instruction -/

theorem test_V_LOAD_3 : observe (machine 0 false [(1, -7)] [0x00, 0x01, 0xFF, 0xFF]) [1] =
    (.running, 4, [65535], false, 0) := by decide
theorem test_V_LOAD_7 : observe (machine 0 false [] [0x00, 0xFF]) [0] =
    (.fatal .invalidRegister, 0, [0], false, 0) := by decide
theorem test_V_ADD_2 : observe (machine 0 false [(0, -5), (1, 3)] [0x01, 0x00, 0x01, 0x02]) [2] =
    (.running, 4, [-2], false, 0) := by decide
theorem test_V_ADD_3 : observe (machine 0 false [(0, 2147483647), (1, 1)] [0x01, 0x00, 0x01, 0x02]) [2] =
    (.fatal .arithOverflow, 0, [0], false, 0) := by decide
theorem test_V_SUB_1 : observe (machine 0 false [(0, 3), (1, 5)] [0x02, 0x00, 0x01, 0x02]) [2] =
    (.running, 4, [-2], false, 0) := by decide
theorem test_V_SUB_3 : observe (machine 0 false [(0, 0), (1, -2147483648)] [0x02, 0x00, 0x01, 0x02]) [2] =
    (.fatal .arithOverflow, 0, [0], false, 0) := by decide
theorem test_V_MUL_2 : observe (machine 0 false [(0, 46340), (1, 46340)] [0x03, 0x00, 0x01, 0x02]) [2] =
    (.running, 4, [2147395600], false, 0) := by decide
theorem test_V_MUL_5 : observe (machine 0 false [(0, -2147483648), (1, -1)] [0x03, 0x00, 0x01, 0x02]) [2] =
    (.fatal .arithOverflow, 0, [0], false, 0) := by decide
theorem test_V_DIV_2 : observe (machine 0 false [(0, -7), (1, 2)] [0x04, 0x00, 0x01, 0x02]) [2] =
    (.running, 4, [-3], false, -1) := by decide
theorem test_V_DIV_11 : observe (machine 0 false [(0, 5), (1, 0)] [0x04, 0x00, 0x01, 0x63]) [0] =
    (.fatal .invalidRegister, 0, [5], false, 0) := by decide
theorem test_V_JMP_4 : observe (machine 0 false [(0, 1000)] [0x05, 0x00]) [0] =
    (.running, 1000, [1000], false, 0) := by decide
theorem test_V_JMP_3 : observe (machine 0 false [(0, -1)] [0x05, 0x00, 0x00, 0x00]) [0] =
    (.fatal .negativeJumpOperand, 0, [-1], false, 0) := by decide
theorem test_V_JMPF_1 : observe (machine 16 false [(3, 6)] [0x06, 0x03, 0x00, 0x00]) [3] =
    (.running, 24, [6], false, 0) := by decide
theorem test_V_JMPF_4 : observe (machine 4 false [(0, -4)] [0x06, 0x00, 0x00, 0x00]) [0] =
    (.fatal .negativeJumpOperand, 4, [-4], false, 0) := by decide
theorem test_V_JMPB_2 : observe (machine 8 false [(0, 10)] [0x07, 0x00, 0x00, 0x00]) [0] =
    (.running, 0, [10], false, 0) := by decide
theorem test_V_JMPB_3 : observe (machine 8 false [(0, 11)] [0x07, 0x00, 0x00, 0x00]) [0] =
    (.fatal .pcUnderflow, 8, [11], false, 0) := by decide
theorem test_V_EQ_3 : observe (machine 0 true [(0, 1), (1, -1)] [0x08, 0x00, 0x01, 0x00]) [0, 1] =
    (.running, 4, [1, -1], false, 0) := by decide
theorem test_V_EQ_5 : observe (machine 0 false [(0, 3), (1, 3)] [0x08, 0x00, 0x01]) [0] =
    (.fatal .operandOutOfBounds, 0, [3], false, 0) := by decide
theorem test_V_NEQ_2 : observe (machine 0 false [(0, -1), (1, 1)] [0x09, 0x00, 0x01, 0x00]) [] =
    (.running, 4, [], true, 0) := by decide
theorem test_V_NEQ_1 : observe (machine 0 true [(0, 3), (1, 3)] [0x09, 0x00, 0x01, 0x00]) [] =
    (.running, 4, [], false, 0) := by decide
theorem test_V_GT_4 : observe (machine 0 false [(0, 2147483647), (1, -2147483648)] [0x0A, 0x00, 0x01, 0x00]) [] =
    (.running, 4, [], true, 0) := by decide
theorem test_V_GT_1 : observe (machine 0 true [(0, 3), (1, 3)] [0x0A, 0x00, 0x01, 0x00]) [] =
    (.running, 4, [], false, 0) := by decide
theorem test_V_LT_2 : observe (machine 0 false [(0, -1), (1, 1)] [0x0B, 0x00, 0x01, 0x00]) [] =
    (.running, 4, [], true, 0) := by decide
theorem test_V_LT_1 : observe (machine 0 true [(0, 3), (1, 3)] [0x0B, 0x00, 0x01, 0x00]) [] =
    (.running, 4, [], false, 0) := by decide
theorem test_V_GTQ_2 : observe (machine 0 false [(0, -1), (1, 1)] [0x0C, 0x00, 0x01, 0x00]) [] =
    (.running, 4, [], false, 0) := by decide
theorem test_V_GTQ_1 : observe (machine 0 true [(0, 3), (1, 3)] [0x0C, 0x00, 0x01, 0x00]) [] =
    (.running, 4, [], true, 0) := by decide
theorem test_V_LTQ_3 : observe (machine 0 false [(0, 1), (1, -1)] [0x0D, 0x00, 0x01, 0x00]) [] =
    (.running, 4, [], false, 0) := by decide
theorem test_V_LTQ_1 : observe (machine 0 true [(0, 3), (1, 3)] [0x0D, 0x00, 0x01, 0x00]) [] =
    (.running, 4, [], true, 0) := by decide
theorem test_V_JEQ_4 : observe (machine 28 false [(3, -8)] [0x0E, 0x03, 0x00, 0x00]) [3] =
    (.running, 32, [-8], false, 0) := by decide
theorem test_V_JEQ_7 : observe (machine 0 false [(3, 0)] [0x0E, 0x03]) [] =
    (.fatal .operandOutOfBounds, 0, [], false, 0) := by decide
theorem test_V_JNEQ_1 : observe (machine 24 false [(3, 32)] [0x0F, 0x03, 0x00, 0x00]) [] =
    (.running, 32, [], false, 0) := by decide
theorem test_V_JNEQ_2 : observe (machine 24 true [(3, 32)] [0x0F, 0x03, 0x00, 0x00]) [] =
    (.running, 28, [], true, 0) := by decide
theorem test_V_INC_2 : observe (machine 0 false [(2, -1)] [0x10, 0x02, 0x00, 0x00]) [2] =
    (.running, 4, [0], false, 0) := by decide
theorem test_V_INC_3 : observe (machine 0 false [(2, 2147483647)] [0x10, 0x02, 0x00, 0x00]) [2] =
    (.fatal .arithOverflow, 0, [2147483647], false, 0) := by decide
theorem test_V_DEC_2 : observe (machine 0 false [(0, 0)] [0x11, 0x00, 0x00, 0x00]) [0] =
    (.running, 4, [-1], false, 0) := by decide
theorem test_V_DEC_3 : observe (machine 0 false [(0, -2147483648)] [0x11, 0x00, 0x00, 0x00]) [0] =
    (.fatal .arithOverflow, 0, [-2147483648], false, 0) := by decide
theorem test_V_HLT_2 : observe (machine 0 false [] [0xFF, 0x12, 0x34, 0x56]) [] =
    (.halted, 4, [], false, 0) := by decide
theorem test_V_HLT_3 : observe (machine 0 false [] [0xFF, 0x00]) [] =
    (.fatal .operandOutOfBounds, 0, [], false, 0) := by decide
theorem test_V_IGL_2 : observe (machine 0 false [] [0x12]) [] =
    (.running, 4, [], false, 0) := by decide
theorem test_V_IGL_3 : observe (machine 0 false [(5, 9)] [0xFE, 0xFF, 0xFF, 0xFF]) [5] =
    (.running, 4, [9], false, 0) := by decide

/-! ### Steps that run no instruction, and the host's operations -/

theorem test_V_STEP_1 : observe (machine 8 false [] []) [] = (.halted, 8, [], false, 0) := by decide

/-- V-STEP-3: a step after V-DIV-5 reports the same cause again. -/
theorem test_V_STEP_3 :
    (machine 0 false [(0, 5)] [0x04, 0x00, 0x01, 0x02]).afterStep.afterStep.result = .fatal .divideByZero := by decide

/-- V-APP-1: the fifth byte is refused at capacity 4. -/
theorem test_V_APP_1 :
    ((machine 0 false [] [0xFF, 0, 0, 0]).appendByteWithin 4 1).1 = .bufferFull ∧
    ((machine 0 false [] [0xFF, 0, 0]).appendByteWithin 4 0).2.readProgram = [0xFF, 0, 0, 0] := by decide

/-- The word a host writes at the PC is what the first step after reset runs (R55, R94). -/
theorem test_withFetchWord_runs_first :
    observe (State.reset.withFetchWord 32 0x00011234) [1] = (.running, 4, [0x1234], false, 0) := by decide

/-! ### Witnesses: each statement's hypotheses are met together, clause by clause -/

/-- What a step answers, as data that can be compared. -/
def nextOf : StepOutcome → Option State
  | .next t => some t
  | _ => none

/-- A machine that has taken a fault. -/
def faultedMachine : State := (machine 0 false [] [0x04, 0x00, 0x01, 0x02]).afterStep

/-- A machine that has halted. -/
def haltedMachine : State := (machine 0 false [] [0xFF, 0, 0, 0]).afterStep

/-- A running machine whose registers 0 and 1 are given, the buffer empty. -/
def withRegs (a b : Int) : State := machine 0 false [(0, a), (1, b)] []

theorem witness_DecodeOfEncodeIsTheInstruction :
    WellFormed (.add (some 1) (some 255) (some 3)) = true ∧ (Instr.add (some 1) (some 255) (some 3)).complete = true ∧
    WellFormed (.igl 18 none none none) = true ∧ WellFormed (.jeq (some 31) none none) = true := by decide

theorem witness_EncodeOfDecodeIsTheBytes :
    decode [0x01, 0x05] = some (.add (some 5) none none) := by decide

theorem witness_OpcodeMapIsTheTable :
    (18 ≤ (18 : Byte).toNat ∧ (18 : Byte).toNat ≤ 254) ∧ 18 ≤ (254 : Byte).toNat ∧ (254 : Byte).toNat ≤ 254 := by decide

theorem witness_StepRunsTheDecodedInstruction :
    (machine 4 false [] [0x12]).runState = .running ∧
    decode (machine 4 false [] [0x12]).fetchInstr = some (.igl 0x12 none none none) := by decide

theorem witness_StepFetchesTheBytesAtThePc :
    (machine 5 false [] [0x10, 0x02, 0, 0]).prog.wf ∧ (machine 5 false [] [0x10, 0x02, 0, 0]).runState = .running ∧
    (machine 5 false [] [0x10, 0x02, 0, 0]).prog.read 5 = some 0x10 ∧
    (machine 5 false [] [0x10, 0x02, 0, 0]).pc.toNat = 5 := by decide

theorem witness_ExhaustionHaltsCleanly :
    (machine 8 false [] []).prog.wf ∧ (machine 8 false [] []).runState = .running ∧
    (machine 8 false [] []).len ≤ (machine 8 false [] []).pc.toNat := by decide

theorem witness_HaltedIsALatch :
    haltedMachine.runState = .halted ∧ (machine 8 false [] []).prog.wf ∧
    (machine 8 false [] []).runState = .running ∧ (machine 8 false [] []).len ≤ (machine 8 false [] []).pc.toNat ∧
    nextOf (step (machine 8 false [] [])) = some (machine 8 false [] []).halt := by decide

theorem witness_FaultedIsPermanent :
    faultedMachine.runState = .faulted := by decide

theorem witness_StepKeepsTheInvariant :
    State.reset.Inv ∧ nextOf (step State.reset) = some State.reset.halt := ⟨⟨rfl, Nat.zero_le _, by decide⟩, by decide⟩

theorem witness_HostOperationsKeepTheInvariant :
    State.reset.Inv := ⟨rfl, Nat.zero_le _, by decide⟩

theorem witness_OnlyHltAndExhaustionHalt :
    (machine 0 false [] [0xFF, 0, 0, 0]).prog.wf ∧ (machine 0 false [] [0xFF, 0, 0, 0]).runState = .running ∧
    nextOf (step (machine 0 false [] [0xFF, 0, 0, 0])) = some haltedMachine ∧ haltedMachine.runState = .halted ∧
    (machine 0 false [] []).afterStep.runState = .halted := by decide

theorem witness_FaultsArePrecise :
    (withRegs 5 0).runState ≠ .faulted ∧
    nextOf (exec (.div (some 0) (some 1) (some 2)) (withRegs 5 0)) = some ((withRegs 5 0).raiseFatal .divideByZero) ∧
    ((withRegs 5 0).raiseFatal .divideByZero).runState = .faulted := by decide

theorem witness_CausesAreRaisedByTheTable :
    (withRegs (-1) 0).runState ≠ .faulted ∧
    nextOf (exec (.jneq (some 0) none none) (withRegs (-1) 0)) =
      some ((withRegs (-1) 0).raiseFatal .negativeJumpOperand) ∧
    nextOf (exec (.inc (some 32) none none) (withRegs (-1) 0)) = some ((withRegs (-1) 0).raiseFatal .invalidRegister) := by decide

theorem witness_OperandFaultsComeInByteOrder :
    firstOperandFault (operandsFetched (.load (some 255) none none) false) = some .invalidRegister ∧
    firstOperandFault (operandsFetched (.load (some 31) none (some 0)) false) = some .operandOutOfBounds ∧
    firstOperandFault (operandsFetched (.div (some 0) (some 1) (some 31)) false) = none ∧
    (withRegs 5 0).runState ≠ .faulted ∧
    nextOf (exec (.div (some 0) (some 1) (some 31)) (withRegs 5 0)) =
      some ((withRegs 5 0).raiseFatal .divideByZero) := by decide

theorem witness_ProgramBufferIsAppendOnly :
    nextOf (exec (.igl 18 none none none) State.reset) = some State.reset.advance ∧
    nextOf (step State.reset) = some State.reset.halt ∧ (machine 0 false [] [0x12]).prog.read 0 = some 0x12 := by decide

theorem witness_EqualFlagIsWrittenByComparisonsAndReadByConditionalJumps :
    isComparison (.igl 18 none none none) = false ∧ isConditionalJump (.igl 18 none none none) = false ∧
    nextOf (exec (.igl 18 none none none) State.reset) = some State.reset.advance ∧
    nextOf (exec (.igl 18 none none none) (State.reset.setEqf true)) = some (State.reset.setEqf true).advance ∧
    (withRegs 5 0).runState ≠ .faulted ∧
    nextOf (exec (.div (some 0) (some 1) (some 2)) (withRegs 5 0)) =
      some ((withRegs 5 0).raiseFatal .divideByZero) ∧
    0 ≤ (withRegs 0 0).x[0].toInt := by decide

theorem witness_OnlyDivTouchesTheRemainder :
    (∀ rA rB rD, Instr.igl 18 none none none ≠ .div rA rB rD) ∧
    nextOf (exec (.igl 18 none none none) State.reset) = some State.reset.advance ∧
    nextOf (exec (.igl 18 none none none) (State.reset.setRem 7)) = some (State.reset.setRem 7).advance ∧
    (withRegs 5 0).runState ≠ .faulted ∧
    nextOf (exec (.div (some 0) (some 1) (some 2)) (withRegs 5 0)) = some ((withRegs 5 0).raiseFatal .divideByZero) := ⟨fun _ _ _ => by simp, by decide⟩

theorem witness_RegistersReadAndWrittenAreTheTables :
    regByte 5 ∉ registersWritten (.add (some 0) (some 1) (some 2)) ∧
    regByte 31 ∉ registersRead (.add (some 0) (some 1) (some 31)) false ∧
    nextOf (exec (.add (some 0) (some 1) (some 31)) (withRegs 5 3)) = some ((withRegs 5 3).setReg 31 8).advance ∧
    nextOf (exec (.add (some 0) (some 1) (some 31)) ((withRegs 5 3).setReg 31 9)) =
      some (((withRegs 5 3).setReg 31 9).setReg 31 8).advance := by decide

theorem witness_RegistersReadAndWrittenAreTheTables_range :
    inWordRange ((withRegs 2147483646 1).x[0].toInt + (withRegs 2147483646 1).x[1].toInt) ∧
    inWordRange ((withRegs (-2147483647) 1).x[0].toInt - (withRegs (-2147483647) 1).x[1].toInt) ∧
    inWordRange ((withRegs (-2147483648) 1).x[0].toInt * (withRegs (-2147483648) 1).x[1].toInt) := by
  unfold inWordRange; decide

theorem witness_NoInstructionReadsTheBufferAsData :
    nextOf (exec (.inc (some 0) (some 0) (some 0)) (withRegs 5 0)) = some ((withRegs 5 0).setReg 0 6).advance ∧
    (nextOf (exec (.inc (some 0) (some 0) (some 0)) (machine 0 false [(0, 5)] [0x12]))).isSome := by decide

theorem witness_FrameOfRegisterWriters :
    nextOf (exec (.inc (some 0) (some 0) (some 0)) (withRegs 5 0)) = some ((withRegs 5 0).setReg 0 6).advance ∧
    regByte 1 ∉ registersWritten (.inc (some 0) (some 0) (some 0)) := by decide

theorem witness_FrameOfComparisons :
    nextOf (exec (.eq (some 0) (some 1) (some 0)) (withRegs 5 5)) = some ((withRegs 5 5).setEqf true).advance := by decide

theorem witness_FrameOfJumps :
    nextOf (exec (.jmp (some 0) none none) (withRegs 5 0)) = some ((withRegs 5 0).setPc 5) := by decide

theorem witness_FrameOfHaltAndIllegal :
    nextOf (exec (.hlt (some 0) (some 0) (some 0)) State.reset) = some State.reset.advance.halt ∧
    nextOf (exec (.igl 254 none none none) State.reset) = some State.reset.advance := by decide

theorem witness_AddSubMulWriteTheExactResult :
    inWordRange ((withRegs 2147483646 1).x[0].toInt + (withRegs 2147483646 1).x[1].toInt) ∧
    inWordRange ((withRegs (-2147483647) 1).x[0].toInt - (withRegs (-2147483647) 1).x[1].toInt) ∧
    inWordRange ((withRegs 46340 46340).x[0].toInt * (withRegs 46340 46340).x[1].toInt) := by
  unfold inWordRange; decide

theorem witness_IncAndDecAdjustByOne :
    (withRegs 2147483646 0).x[0].toInt ≠ 2 ^ 31 - 1 ∧ (withRegs (-2147483647) 0).x[0].toInt ≠ -2 ^ 31 := by decide

theorem witness_OverflowIsFatal :
    ¬ inWordRange ((withRegs 2147483647 1).x[0].toInt + (withRegs 2147483647 1).x[1].toInt) ∧
    ¬ inWordRange ((withRegs (-2147483648) 1).x[0].toInt - (withRegs (-2147483648) 1).x[1].toInt) ∧
    ¬ inWordRange ((withRegs 46341 46341).x[0].toInt * (withRegs 46341 46341).x[1].toInt) ∧
    (withRegs 2147483647 0).x[0].toInt = 2 ^ 31 - 1 ∧ (withRegs (-2147483648) 0).x[0].toInt = -2 ^ 31 := by
  unfold inWordRange; decide

theorem witness_DivWritesQuotientAndRemainder :
    (withRegs (-2147483648) 1).x[1].toInt ≠ 0 ∧
    ¬ ((withRegs (-2147483648) 1).x[0].toInt = -2 ^ 31 ∧ (withRegs (-2147483648) 1).x[1].toInt = -1) := by decide

theorem witness_DivFaultsAsTheRuleSays :
    (withRegs 5 0).x[1].toInt = 0 ∧ (withRegs (-2147483648) (-1)).x[0].toInt = -2 ^ 31 ∧
    (withRegs (-2147483648) (-1)).x[1].toInt = -1 := by decide

theorem witness_UnconditionalJumpsReachTheirTargets :
    0 ≤ (withRegs 2147483647 2).x[0].toInt ∧
    (withRegs 2147483647 2).pc.toNat + 2 + (withRegs 2147483647 2).x[0].toInt ≤ 2 ^ 32 - 1 ∧
    0 ≤ (withRegs 2147483647 2).x[1].toInt ∧
    (withRegs 2147483647 2).x[1].toInt ≤ (withRegs 2147483647 2).pc.toNat + 2 ∧
    (withRegs 2147483647 2).pc.toNat < 2 ^ 31 := by decide

theorem witness_RelativeJumpsNeverWrap :
    0 ≤ ((withRegs 2147483647 3).setPc 0x7FFFFFFF).x[0].toInt ∧
    2 ^ 32 - 1 < ((withRegs 2147483647 3).setPc 0x7FFFFFFF).pc.toNat + 2 +
      ((withRegs 2147483647 3).setPc 0x7FFFFFFF).x[0].toInt ∧
    0 ≤ (withRegs 2147483647 3).x[1].toInt ∧
    (withRegs 2147483647 3).pc.toNat + 2 < (withRegs 2147483647 3).x[1].toInt := by decide

theorem witness_NegativeJumpOperandsAreFatal :
    (withRegs (-1) 0).x[0].toInt < 0 ∧ (withRegs (-1) 0).eqf = false ∧
    ((withRegs (-2147483648) 0).setEqf true).x[0].toInt < 0 ∧ ((withRegs (-2147483648) 0).setEqf true).eqf = true := by decide

theorem witness_ConditionalJumpsFollowTheFlag :
    ((withRegs 0 0).setEqf true).eqf = true ∧ 0 ≤ ((withRegs 0 0).setEqf true).x[0].toInt ∧
    (withRegs 0 0).eqf = false ∧ 0 ≤ (withRegs 0 0).x[0].toInt ∧ (some (0 : Byte)).isSome ∧
    ((none : OperandByte) = none) := by decide

theorem witness_IllegalOpcodesAreFourByteNoOps :
    18 ≤ (18 : Byte).toNat ∧ (254 : Byte).toNat ≤ 254 ∧ 18 ≤ (0xB9 : Byte).toNat ∧ (0xB9 : Byte).toNat ≤ 254 ∧
    (machine 3 false [] [0xB9]).prog.wf ∧
    (machine 3 false [] [0xB9]).runState = .running ∧ (machine 3 false [] [0xB9]).prog.read 3 = some 0xB9 ∧
    (machine 3 false [] [0xB9]).len ≤ ((machine 3 false [] [0xB9]).pc + 4).toNat := by decide

theorem witness_AppendByteAppendsOrRefuses :
    (machine 0 false [] [0x12]).len = 1 ∧ (machine 0 false [] [0x12]).len < 2 ∧ (machine 0 false [] [0x12]).prog.wf := by decide

theorem witness_AppendedBytesAreSeenAtOnce :
    State.reset.Inv ∧ State.reset.len < Config.progCapacity ∧ State.reset.runState = .running ∧
    State.reset.pc.toNat = State.reset.len := ⟨⟨rfl, Nat.zero_le _, by decide⟩, Nat.succ_pos _, rfl, rfl⟩

theorem witness_RunRepeatsStepUntilItStops :
    (machine 0 false [] [0x12]).runFor 2 = some (.halted, (machine 0 false [] [0x12]).afterSteps 2) ∧
    haltedMachine.runState ≠ .running ∧ faultedMachine.runState ≠ .running := by decide

theorem witness_JumpsToThemselvesNeverEnd :
    (machine 4 false [(0, 4)] [0x05, 0]).prog.wf ∧ (machine 4 false [(0, 4)] [0x05, 0]).len ≤ 2 ^ 31 ∧
    (machine 4 false [(0, 4)] [0x05, 0]).runState = .running ∧
    (machine 4 false [(0, 4)] [0x05, 0]).prog.read 5 = regByte 0 ∧
    (machine 4 false [(0, 4)] [0x05, 0]).prog.read 4 = some 0x05 ∧
    (machine 4 false [(0, 4)] [0x05, 0]).x[0] = (machine 4 false [(0, 4)] [0x05, 0]).pc ∧
    (machine 4 false [(0, 2)] [0x07, 0]).prog.read 4 = some 0x07 ∧ (machine 4 false [(0, 2)] [0x07, 0]).x[0] = 2 := by decide

theorem witness_NonJumpStrideIsFour :
    (machine 0 false [] [0x12]).prog.wf ∧ (machine 0 false [] [0x12]).len ≤ 2 ^ 31 ∧
    (machine 0 false [] [0x12]).runState = .running ∧
    decode (machine 0 false [] [0x12]).fetchInstr = some (.igl 0x12 none none none) ∧
    isJump (.igl 0x12 none none none) = false ∧
    nextOf (step (machine 0 false [] [0x12])) = some (machine 0 false [] [0x12]).advance ∧
    (machine 0 false [] [0x12]).advance.runState ≠ .faulted := by decide

theorem witness_NonJumpProgramsCountInstructions :
    (machine 0 false [] [0x12]).prog.wf ∧ (machine 0 false [] [0x12]).len ≤ 2 ^ 31 ∧
    (machine 0 false [] [0x12]).runState = .running ∧
    (∀ (k : Nat) (op : Byte), (machine 0 false [] [0x12]).prog.read ((machine 0 false [] [0x12]).pc.toNat + 4 * k) = some op →
      isJump (assemble op none none none) = false) ∧
    ((machine 0 false [] [0x12]).afterSteps 1).runState = .running ∧
    ((machine 0 false [] [0x12]).afterSteps 2).runState = .halted := by
  refine ⟨by decide, by decide, by decide, ?_, by decide, by decide⟩
  intro k op h
  have hprog : (machine 0 false [] [0x12]).prog = [(0, 0x12)] := by decide
  have hpc : (machine 0 false [] [0x12]).pc.toNat = 0 := by decide
  rw [hprog, hpc] at h
  cases k with
  | zero => have e : op = 0x12 := by simpa [Memory.read] using h.symm
            subst e; decide
  | succ k =>
    have e : ((4 * (k + 1)) == (0 : Nat)) = false := by simp
    simp [Memory.read, List.lookup_cons] at h
    simp [e] at h

theorem witness_PcBeyondTheEndHaltsAndOperandBeyondTheEndFaults :
    (machine 0 false [(0, 1)] [0x05]).prog.wf ∧ (machine 0 false [(0, 1)] [0x05]).runState = .running ∧
    0 ≤ (machine 0 false [(0, 1)] [0x05]).x[0].toInt ∧
    ((machine 0 false [(0, 1)] [0x05]).len : Int) ≤ (machine 0 false [(0, 1)] [0x05]).x[0].toInt ∧
    nextOf (exec (.jmp (regByte 0) none none) (machine 0 false [(0, 1)] [0x05])) =
      some ((machine 0 false [(0, 1)] [0x05]).setPc 1) ∧
    (machine 0 false [(0, 1)] [0x05]).prog.read 0 = some 0x05 ∧ (machine 0 false [(0, 1)] [0x05]).len = 0 + 1 ∧
    (0x11 : Byte).toNat ≤ 17 ∧ (0xFF : Byte).toNat = 255 := by decide

end Sys2Proof.Tests
end

section
/-!
PROOFS. What stops a machine for good, and what an instruction does to states that differ in one field only.
-/

namespace Sys2Proof.Machine

/-! ### States that differ in the program buffer only -/

/-- `t` is `s` but for the program buffer. -/
def SameButProg (s t : State) : Prop := ∃ m, t = { s with prog := m }

namespace SameButProg

variable {s t u : State}

theorem refl (s : State) : SameButProg s s := ⟨s.prog, rfl⟩

theorem trans (hst : SameButProg s t) (htu : SameButProg t u) : SameButProg s u := by
  obtain ⟨m, rfl⟩ := hst
  obtain ⟨n, rfl⟩ := htu
  exact ⟨n, rfl⟩

theorem eq_with_prog (h : SameButProg s t) : t = { s with prog := t.prog } := by
  obtain ⟨m, rfl⟩ := h
  rfl

theorem pc (h : SameButProg s t) : t.pc = s.pc := by rw [h.eq_with_prog]

theorem eqf (h : SameButProg s t) : t.eqf = s.eqf := by rw [h.eq_with_prog]

theorem runState (h : SameButProg s t) : t.runState = s.runState := by rw [h.eq_with_prog]

end SameButProg

/-- An append writes the program buffer alone, whether it succeeds or not (R29). -/
theorem appendByte_sameButProg (s : State) (b : Byte) : SameButProg s (s.appendByte b).2 := by
  rcases appendByteWithin_cases Config.progCapacity b s with ⟨_, h⟩ | ⟨_, h⟩ <;> rw [State.appendByte, h]
  · exact .refl s
  · exact ⟨s.prog.append b, rfl⟩

/-! ### A machine that has stopped, and how exhaustion stops it -/

/-- A machine that is not RUNNING is left alone by a step, HALTED or FAULTED (R51). -/
theorem step_of_not_running {s : State} (h : s.runState ≠ .running) : step s = .next s := by
  cases hrun : s.runState with
  | running => exact absurd hrun h
  | halted => exact step_of_halted hrun
  | faulted => exact step_of_faulted hrun

theorem afterOp_sameButProg_of_not_running {s : State} (h : s.runState ≠ .running) (op : HostOp) :
    SameButProg s (s.afterOp op) := by
  cases op with
  | appendByte b => exact appendByte_sameButProg s b
  | step => rw [State.afterOp, afterStep_of_step (step_of_not_running h)]; exact .refl s
  | inspect => exact .refl s

/-- Whatever the host does with a stopped machine, it changes the program buffer alone (R22, R85). -/
theorem afterOps_sameButProg_of_not_running {s : State} (h : s.runState ≠ .running) (ops : List HostOp) :
    SameButProg s (s.afterOps ops) := by
  refine afterOps_keeps (P := SameButProg s) (fun t op hst => ?_) (.refl s) ops
  have ht : t.runState ≠ .running := hst.runState ▸ h
  exact hst.trans (afterOp_sameButProg_of_not_running ht op)

/-- Exhaustion: a step that begins at or beyond LEN halts the machine and does nothing else (R20, R34, R51). -/
theorem step_of_exhausted {s : State} (hwf : s.prog.wf) (hrun : s.runState = .running)
    (hlen : s.len ≤ s.pc.toNat) : step s = .next s.halt := by
  rw [step_of_running hrun hwf, (read_eq_none_iff hwf s.pc.toNat).2 hlen]

/-- Settles O8: a stopped machine keeps all but its buffer, and exhaustion stops the machine where its PC stands. -/
theorem haltedIsALatch : Obligations.HaltedIsALatch := by
  unfold Obligations.HaltedIsALatch
  refine ⟨fun s hs => ⟨step_of_halted hs, by simp only [State.result, hs]⟩,
    fun s ops hs => (afterOps_sameButProg_of_not_running (by simp [hs]) ops).eq_with_prog, ?_⟩
  intro s t ops hwf hrun hlen hstep
  rw [step_of_exhausted hwf hrun hlen] at hstep
  obtain rfl : s.halt = t := by simpa using hstep
  have hkept : SameButProg s.halt (s.halt.afterOps ops) := afterOps_sameButProg_of_not_running (by simp) ops
  exact ⟨hkept.runState, hkept.pc⟩

/-! ### What an effect and a fault entry leave unchanged -/

theorem FaultEntry.eqf {s t : State} (h : FaultEntry s t) : t.eqf = s.eqf := by
  obtain ⟨c, _, rfl⟩ := h
  rfl

/-- Only the six comparisons write EQF (R18). -/
theorem Effect.eqf_of_not_comparison {i : Instr} {s t : State} (h : Effect i s t) (hi : isComparison i = false) :
    t.eqf = s.eqf := by
  cases h with
  | eq | neq | gt | lt | gtq | ltq => cases hi
  | _ => rfl

/-- An instruction that commits its writes does not fault the machine (R53). -/
theorem Effect.runState_ne_faulted {i : Instr} {s t : State} (h : Effect i s t) (hs : s.runState ≠ .faulted) :
    t.runState ≠ .faulted := by
  cases h with
  | hlt => simp
  | _ => exact hs

/-- An instruction that leaves the machine FAULTED did nothing but enter the fault (R53, R83). -/
theorem faultEntry_of_exec_faulted {i : Instr} {s t : State} (hs : s.runState ≠ .faulted)
    (h : exec i s = .next t) (ht : t.runState = .faulted) : FaultEntry s t :=
  (exec_cases h).resolve_left fun he => he.runState_ne_faulted hs ht

theorem exec_eqf_of_not_comparison {i : Instr} {s t : State} (hi : isComparison i = false)
    (h : exec i s = .next t) : t.eqf = s.eqf :=
  (exec_cases h).elim (fun he => he.eqf_of_not_comparison hi) FaultEntry.eqf

/-! ### An instruction begun in two states that agree on what it reads -/

/-- Related states agree on the registers and the PC, all that an instruction other than a conditional jump reads, and
every write keeps the relation. -/
structure ReadsSame (R : State → State → Prop) : Prop where
  reg {s u : State} : R s u → ∀ i, u.reg i = s.reg i
  pc {s u : State} : R s u → u.pc = s.pc
  setReg {s u : State} : R s u → ∀ i w, R (s.setReg i w) (u.setReg i w)
  setPc {s u : State} : R s u → ∀ w, R (s.setPc w) (u.setPc w)
  setRem {s u : State} : R s u → ∀ w, R (s.setRem w) (u.setRem w)
  setEqf {s u : State} : R s u → ∀ b, R (s.setEqf b) (u.setEqf b)
  halt {s u : State} : R s u → R s.halt u.halt
  raiseFatal {s u : State} : R s u → ∀ c, R (s.raiseFatal c) (u.raiseFatal c)

/-- The next states of two outcomes, where both have one, are related by `R`. -/
def NextRelated (R : State → State → Prop) (o o' : StepOutcome) : Prop :=
  ∀ t u, o = .next t → o' = .next u → R t u

theorem nextRelated_next {R : State → State → Prop} {t u : State} (h : R t u) :
    NextRelated R (.next t) (.next u) := by
  rintro _ _ ⟨⟩ ⟨⟩
  exact h

/-- What JMPF and JMPB share: `target` computes the new PC from the old one and the offset (R65, R66). -/
def relativeJump (target : Word → Nat → Except FaultCause Word) (r : OperandByte) (s : State) : StepOutcome :=
  s.finish do
    let i ← regOperand r
    let v ← jumpOperand (s.reg i)
    let t ← target s.pc v
    pure (s.setPc t)

theorem execJmpf_eq_relativeJump (r p2 p3 : OperandByte) (s : State) :
    execJmpf r p2 p3 s = relativeJump forwardTarget r s := rfl

theorem execJmpb_eq_relativeJump (r p2 p3 : OperandByte) (s : State) :
    execJmpb r p2 p3 s = relativeJump backwardTarget r s := rfl

namespace ReadsSame

variable {R : State → State → Prop} {s u : State}

theorem advance (hR : ReadsSame R) (h : R s u) : R s.advance u.advance := by
  rw [State.advance, State.advance, hR.pc h]
  exact hR.setPc h _

/-- One check of an instruction's rule: where it fails both states enter the same fault, and where it succeeds the rest
of the rule decides. -/
theorem finish_bind {α : Type} (hR : ReadsSame R) (h : R s u) (r : Except FaultCause α)
    {f g : α → Except FaultCause State} (hfg : ∀ a, NextRelated R (s.finish (f a)) (u.finish (g a))) :
    NextRelated R (s.finish (r >>= f)) (u.finish (r >>= g)) := by
  cases r with
  | error c => exact nextRelated_next (hR.raiseFatal h c)
  | ok a => exact hfg a

theorem exactArith_related (hR : ReadsSame R) (h : R s u) (f : Int → Int → Int) (rA rB rD : OperandByte) :
    NextRelated R (exactArith f rA rB rD s) (exactArith f rA rB rD u) := by
  simp only [exactArith, hR.reg h]
  refine hR.finish_bind h _ fun ⟨a, b, d⟩ => hR.finish_bind h _ fun w => ?_
  exact nextRelated_next (hR.advance (hR.setReg h d w))

theorem execDiv_related (hR : ReadsSame R) (h : R s u) (rA rB rD : OperandByte) :
    NextRelated R (execDiv rA rB rD s) (execDiv rA rB rD u) := by
  simp only [execDiv, hR.reg h]
  refine hR.finish_bind h _ fun ⟨a, b, d⟩ => hR.finish_bind h _ fun ⟨q, r⟩ => ?_
  exact nextRelated_next (hR.advance (hR.setRem (hR.setReg h d q) r))

theorem compareRegs_related (hR : ReadsSame R) (h : R s u) (rel : Int → Int → Bool) (rA rB p3 : OperandByte) :
    NextRelated R (compareRegs rel rA rB p3 s) (compareRegs rel rA rB p3 u) := by
  simp only [compareRegs, hR.reg h]
  refine hR.finish_bind h _ fun ⟨a, b⟩ => ?_
  exact nextRelated_next (hR.advance (hR.setEqf h _))

theorem addToReg_related (hR : ReadsSame R) (h : R s u) (k : Int) (r p2 p3 : OperandByte) :
    NextRelated R (addToReg k r p2 p3 s) (addToReg k r p2 p3 u) := by
  simp only [addToReg, hR.reg h]
  refine hR.finish_bind h _ fun i => hR.finish_bind h _ fun w => ?_
  exact nextRelated_next (hR.advance (hR.setReg h i w))

theorem conditionalJump_related (hR : ReadsSame R) (h : R s u) (taken : Bool) (r p2 p3 : OperandByte) :
    NextRelated R (conditionalJump taken r p2 p3 s) (conditionalJump taken r p2 p3 u) := by
  simp only [conditionalJump, hR.reg h]
  refine hR.finish_bind h _ fun i => ?_
  cases taken with
  | true => exact hR.finish_bind h _ fun t => nextRelated_next (hR.setPc h _)
  | false => exact hR.finish_bind h _ fun _ => hR.finish_bind h _ fun _ => nextRelated_next (hR.advance h)

theorem execLoad_related (hR : ReadsSame R) (h : R s u) (rD hi lo : OperandByte) :
    NextRelated R (execLoad rD hi lo s) (execLoad rD hi lo u) := by
  refine hR.finish_bind h _ fun d => hR.finish_bind h _ fun v => hR.finish_bind h _ fun l => ?_
  exact nextRelated_next (hR.advance (hR.setReg h d _))

theorem execJmp_related (hR : ReadsSame R) (h : R s u) (r p2 p3 : OperandByte) :
    NextRelated R (execJmp r p2 p3 s) (execJmp r p2 p3 u) := by
  simp only [execJmp, hR.reg h]
  exact hR.finish_bind h _ fun i => hR.finish_bind h _ fun t => nextRelated_next (hR.setPc h _)

theorem relativeJump_related (hR : ReadsSame R) (h : R s u) (target : Word → Nat → Except FaultCause Word)
    (r : OperandByte) : NextRelated R (relativeJump target r s) (relativeJump target r u) := by
  simp only [relativeJump, hR.reg h, hR.pc h]
  refine hR.finish_bind h _ fun i => hR.finish_bind h _ fun v => hR.finish_bind h _ fun t => ?_
  exact nextRelated_next (hR.setPc h t)

theorem execHlt_related (hR : ReadsSame R) (h : R s u) (p1 p2 p3 : OperandByte) :
    NextRelated R (execHlt p1 p2 p3 s) (execHlt p1 p2 p3 u) := by
  refine hR.finish_bind h _ fun _ => hR.finish_bind h _ fun _ => hR.finish_bind h _ fun _ => ?_
  exact nextRelated_next (hR.halt (hR.advance h))

/-- Every instruction keeps such a relation; a conditional jump does where EQF, which it reads, is the same. -/
theorem exec_related (hR : ReadsSame R) (h : R s u) {i : Instr} (hflag : isConditionalJump i = true → u.eqf = s.eqf) :
    NextRelated R (exec i s) (exec i u) := by
  cases i with
  | load rD hi lo => exact hR.execLoad_related h rD hi lo
  | add rA rB rD | sub rA rB rD | mul rA rB rD => exact hR.exactArith_related h _ rA rB rD
  | div rA rB rD => exact hR.execDiv_related h rA rB rD
  | jmp r p2 p3 => exact hR.execJmp_related h r p2 p3
  | jmpf r p2 p3 =>
    simp only [exec, execJmpf_eq_relativeJump]
    exact hR.relativeJump_related h forwardTarget r
  | jmpb r p2 p3 =>
    simp only [exec, execJmpb_eq_relativeJump]
    exact hR.relativeJump_related h backwardTarget r
  | eq rA rB p3 | neq rA rB p3 | gt rA rB p3 | lt rA rB p3 | gtq rA rB p3 | ltq rA rB p3 =>
    exact hR.compareRegs_related h _ rA rB p3
  | jeq r p2 p3 | jneq r p2 p3 =>
    simp only [exec, execJeq, execJneq, hflag rfl]
    exact hR.conditionalJump_related h _ r p2 p3
  | inc r p2 p3 | dec r p2 p3 => exact hR.addToReg_related h _ r p2 p3
  | hlt p1 p2 p3 => exact hR.execHlt_related h p1 p2 p3
  | igl => exact nextRelated_next (hR.advance h)

end ReadsSame

/-! ### The equal flag -/

/-- `u` is `s` but for the equal flag. -/
def SameButEqf (s u : State) : Prop := ∃ v, u = s.setEqf v

theorem SameButEqf.readsSame : ReadsSame SameButEqf where
  reg := by rintro s _ ⟨v, rfl⟩ i; rfl
  pc := by rintro s _ ⟨v, rfl⟩; rfl
  setReg := by rintro s _ ⟨v, rfl⟩ i w; exact ⟨v, rfl⟩
  setPc := by rintro s _ ⟨v, rfl⟩ w; exact ⟨v, rfl⟩
  setRem := by rintro s _ ⟨v, rfl⟩ w; exact ⟨v, rfl⟩
  setEqf := by rintro s _ ⟨v, rfl⟩ b; exact ⟨b, rfl⟩
  halt := by rintro s _ ⟨v, rfl⟩; exact ⟨v, rfl⟩
  raiseFatal := by rintro s _ ⟨v, rfl⟩ c; exact ⟨v, rfl⟩

/-- What an instruction other than JEQ and JNEQ does to the rest of the state does not depend on EQF (R18). -/
theorem exec_setEqf_sameButEqf {i : Instr} {s t u : State} {v : Bool} (hi : isConditionalJump i = false)
    (ht : exec i s = .next t) (hu : exec i (s.setEqf v) = .next u) : SameButEqf t u :=
  SameButEqf.readsSame.exec_related ⟨v, rfl⟩ (fun hj => by simp [hi] at hj) t u ht hu

/-- Settles O21: who writes EQF is read off the effects, and who reads it off two runs that
differ in it. -/
theorem equalFlagIsWrittenByComparisonsAndReadByConditionalJumps :
    Obligations.EqualFlagIsWrittenByComparisonsAndReadByConditionalJumps := by
  unfold Obligations.EqualFlagIsWrittenByComparisonsAndReadByConditionalJumps
  refine ⟨rfl, fun i s t hi h => exec_eqf_of_not_comparison hi h, ?comparisons,
    fun i s t hs h ht => (faultEntry_of_exec_faulted hs h ht).eqf, ?reads, ?jumps,
    fun s b => ⟨rfl, (appendByte_sameButProg s b).eqf⟩⟩
  case comparisons =>
    intro a b p s
    exact ⟨⟨_, (Effect.eq a b p s).exec_eq, rfl⟩, ⟨_, (Effect.neq a b p s).exec_eq, rfl⟩,
      ⟨_, (Effect.gt a b p s).exec_eq, rfl⟩, ⟨_, (Effect.lt a b p s).exec_eq, rfl⟩,
      ⟨_, (Effect.gtq a b p s).exec_eq, rfl⟩, ⟨_, (Effect.ltq a b p s).exec_eq, rfl⟩⟩
  case reads =>
    intro i s t u v hi ht hu
    obtain ⟨w, rfl⟩ := exec_setEqf_sameButEqf hi ht hu
    rfl
  case jumps =>
    intro r p2 p3 s h0
    exact ⟨(Effect.jeqTaken r _ _ (s.setEqf true) rfl h0).exec_eq,
      (Effect.jeqUntaken r p2 p3 (s.setEqf false) rfl).exec_eq,
      (Effect.jneqTaken r _ _ (s.setEqf false) rfl h0).exec_eq,
      (Effect.jneqUntaken r p2 p3 (s.setEqf true) rfl).exec_eq⟩

end Sys2Proof.Machine
end

section
/-!
PROOFS. The program buffer: what a step fetches from it, and that it is append-only.
-/

namespace Sys2Proof.Machine

/-! ### The fetch -/

/-- Settles O6: nothing in the fetch rule of a running machine asks where the PC stands. -/
theorem stepFetchesTheBytesAtThePc : Obligations.StepFetchesTheBytesAtThePc := by
  unfold Obligations.StepFetchesTheBytesAtThePc
  intro s op hwf hrun hop
  rw [step_of_running hrun hwf, hop]

/-! ### No instruction and no step writes the buffer -/

theorem Effect.prog {i : Instr} {s t : State} (h : Effect i s t) : t.prog = s.prog := by
  cases h <;> rfl

theorem FaultEntry.prog {s t : State} (h : FaultEntry s t) : t.prog = s.prog := by
  obtain ⟨c, _, rfl⟩ := h
  rfl

theorem exec_prog {i : Instr} {s t : State} (h : exec i s = .next t) : t.prog = s.prog :=
  (exec_cases h).elim Effect.prog FaultEntry.prog

/-- Everything a step can do, in every state: nothing, halt the machine, or run an instruction (R51). -/
theorem step_cases {s t : State} (h : step s = .next t) :
    t = s ∨ t = s.halt ∨ ∃ i, decode s.fetchInstr = some i ∧ exec i s = .next t := by
  by_cases hrun : s.runState = .running
  · cases hfetch : decode s.fetchInstr with
    | none =>
      have hhalt : s.halt = t := by simpa [step, executionCycle, hrun, hfetch] using h
      exact .inr (.inl hhalt.symm)
    | some i => exact .inr (.inr ⟨i, rfl, by simpa [step, executionCycle, hrun, hfetch] using h⟩)
  · have hsame : s = t := by simpa [step_of_not_running hrun] using h
    exact .inl hsame.symm

theorem step_prog {s t : State} (h : step s = .next t) : t.prog = s.prog := by
  rcases step_cases h with rfl | rfl | ⟨i, _, hexec⟩
  · rfl
  · rfl
  · exact exec_prog hexec

/-! ### The host only appends -/

theorem afterStep_prog (s : State) : s.afterStep.prog = s.prog := by
  cases h : step s with
  | next t => rw [afterStep_of_step h, step_prog h]
  | fault r => simp [State.afterStep, h]
  | refused r => simp [State.afterStep, h]

theorem read_appendByte_of_some {s : State} {a : Nat} {v : Byte} (h : s.prog.read a = some v) (b : Byte) :
    (s.appendByte b).2.prog.read a = some v := by
  rw [State.appendByte]
  rcases appendByteWithin_cases Config.progCapacity b s with ⟨_, hfull⟩ | ⟨_, hok⟩
  · rw [hfull]
    exact h
  · rw [hok]
    exact read_append_of_some h b

theorem read_afterOp_of_some {s : State} {a : Nat} {v : Byte} (h : s.prog.read a = some v) (op : HostOp) :
    (s.afterOp op).prog.read a = some v := by
  cases op with
  | appendByte b => exact read_appendByte_of_some h b
  | step => rw [State.afterOp, afterStep_prog, h]
  | inspect => exact h

/-- Settles O20: an instruction and a step leave the whole buffer as it is, and each operation of the host keeps the
byte, so every sequence of them does. -/
theorem programBufferIsAppendOnly : Obligations.ProgramBufferIsAppendOnly := by
  unfold Obligations.ProgramBufferIsAppendOnly
  refine ⟨fun i s t a h => by rw [exec_prog h], fun s t a h => by rw [step_prog h], fun s ops a b h => ?_⟩
  exact afterOps_keeps (P := fun u => u.prog.read a = some b) (fun u op hu => read_afterOp_of_some hu op) h ops

end Sys2Proof.Machine
end

section
/-!
PROOFS. The decoder: one opcode byte, one instruction.
-/

namespace Sys2Proof.Machine

/-- Every opcode byte that the table gives to no other row is the illegal instruction (R45, R47). -/
theorem assemble_of_illegalOpcode {op : Byte} (hlo : 18 ≤ op.toNat) (hhi : op.toNat ≤ 254) (b1 b2 b3 : OperandByte) :
    assemble op b1 b2 b3 = .igl op b1 b2 b3 := by
  unfold assemble
  split
  case h_20 => rfl
  all_goals omega

/-- The opcode byte alone selects the instruction; the operand bytes are handed on as far as they are there (R44). -/
theorem decode_cons (op : Byte) (rest : List Byte) :
    decode (op :: rest) = some (assemble op rest[0]? rest[1]? rest[2]?) := rfl

theorem decode_of_illegalOpcode {op : Byte} (hlo : 18 ≤ op.toNat) (hhi : op.toNat ≤ 254) (rest : List Byte) :
    decode (op :: rest) = some (.igl op rest[0]? rest[1]? rest[2]?) := by
  rw [decode_cons, assemble_of_illegalOpcode hlo hhi]

/-- Settles O3: the assigned opcodes are rows of the table that the decoder reads off, the illegal ones a range of
bytes, and a byte list that is not empty always decodes. -/
theorem opcodeMapIsTheTable : Obligations.OpcodeMapIsTheTable := by
  unfold Obligations.OpcodeMapIsTheTable
  intro rest
  refine ⟨rfl, rfl, rfl, rfl, rfl, rfl, rfl, rfl, rfl, rfl, rfl, rfl, rfl, rfl, rfl, rfl, rfl, rfl, rfl, ?illegal, ?total⟩
  case illegal => exact fun op hlo hhi => decode_of_illegalOpcode hlo hhi rest
  case total => exact fun op => by simp [decode_cons]

end Sys2Proof.Machine
end

section
/-!
PROOFS. The illegal instruction: a no-op of four bytes.
-/

namespace Sys2Proof.Machine

/-- A step that left the machine RUNNING returned `Running` (R51). -/
theorem result_of_running {s : State} (h : s.runState = .running) : s.result = .running := by
  simp only [State.result, h]

/-- A step at an illegal opcode byte moves the PC past four bytes, of which only the first need be there (R79). -/
theorem step_of_illegalOpcode {s : State} {op : Byte} (hlo : 18 ≤ op.toNat) (hhi : op.toNat ≤ 254)
    (hwf : s.prog.wf) (hrun : s.runState = .running) (hop : s.prog.read s.pc.toNat = some op) :
    step s = .next s.advance := by
  rw [stepFetchesTheBytesAtThePc s op hwf hrun hop, assemble_of_illegalOpcode hlo hhi]
  exact (Effect.igl op _ _ _ s).exec_eq

/-- Settles O41: IGL's one effect is the advance, which keeps the machine RUNNING and its buffer as it is, so a step
after it at or beyond LEN is an exhaustion. -/
theorem illegalOpcodesAreFourByteNoOps : Obligations.IllegalOpcodesAreFourByteNoOps := by
  unfold Obligations.IllegalOpcodesAreFourByteNoOps
  intro op hlo hhi
  refine ⟨fun rest => decode_of_illegalOpcode hlo hhi rest,
    fun u1 u2 u3 s => (Effect.igl op u1 u2 u3 s).exec_eq, fun s hwf hrun hop => ?_⟩
  have hrunAfter : s.advance.runState = .running := hrun
  have hwfAfter : s.advance.prog.wf := hwf
  exact ⟨step_of_illegalOpcode hlo hhi hwf hrun hop, result_of_running hrunAfter,
    fun hlen => step_of_exhausted hwfAfter hrunAfter hlen⟩

end Sys2Proof.Machine
end

section
/-!
PROOFS. The encoder: decoding and encoding are each other's inverse on what has an encoding.
-/

namespace Sys2Proof.Machine

/-! ### The bytes of an instruction and the instruction of those bytes -/

/-- An instruction is the row of its own opcode byte, with its own operand bytes (R45). -/
theorem assemble_opcodeByte {i : Instr} (h : i.illegalOpcode = true) :
    assemble (opcodeByte i) i.operandBytes.1 i.operandBytes.2.1 i.operandBytes.2.2 = i := by
  cases i with
  | igl op u1 u2 u3 =>
    simp only [Instr.illegalOpcode, Bool.and_eq_true, decide_eq_true_eq] at h
    exact assemble_of_illegalOpcode h.1 h.2 u1 u2 u3
  | _ => rfl

/-- The operand bytes are handed on as they stand (R44). -/
@[simp] theorem operandBytes_assemble (op : Byte) (b1 b2 b3 : OperandByte) :
    (assemble op b1 b2 b3).operandBytes = (b1, b2, b3) := by
  unfold assemble
  split <;> rfl

@[simp] theorem opcodeByte_assemble (op : Byte) (b1 b2 b3 : OperandByte) :
    opcodeByte (assemble op b1 b2 b3) = op := by
  unfold assemble
  split
  case h_20 => rfl
  all_goals next hop => exact BitVec.eq_of_toNat_eq hop.symm

/-- The decoder answers IGL for no byte that the table assigns (R45). -/
@[simp] theorem illegalOpcode_assemble (op : Byte) (b1 b2 b3 : OperandByte) :
    (assemble op b1 b2 b3).illegalOpcode = true := by
  unfold assemble
  split
  case h_20 =>
    have hlt := op.isLt
    simp only [imp_false, Instr.illegalOpcode, Bool.and_eq_true, decide_eq_true_eq] at *
    omega
  all_goals rfl

/-! ### The operand bytes as a list -/

/-- In a row of bytes without a hole, byte `k` is the one at position `k`; bytes may follow where all three are there. -/
theorem getElem?_operandBytes {b1 b2 b3 : OperandByte} {rest : List Byte} (h2 : b2.isSome → b1.isSome)
    (h3 : b3.isSome → b2.isSome) (hrest : rest = [] ∨ b3.isSome) :
    (b1.toList ++ b2.toList ++ b3.toList ++ rest)[0]? = b1 ∧ (b1.toList ++ b2.toList ++ b3.toList ++ rest)[1]? = b2 ∧
      (b1.toList ++ b2.toList ++ b3.toList ++ rest)[2]? = b3 := by
  cases b3 with
  | some c =>
    obtain ⟨b, rfl⟩ := Option.isSome_iff_exists.1 (h3 rfl)
    obtain ⟨a, rfl⟩ := Option.isSome_iff_exists.1 (h2 rfl)
    exact ⟨rfl, rfl, rfl⟩
  | none =>
    obtain rfl : rest = [] := by simpa using hrest
    cases b2 with
    | some b =>
      obtain ⟨a, rfl⟩ := Option.isSome_iff_exists.1 (h2 rfl)
      exact ⟨rfl, rfl, rfl⟩
    | none => cases b1 <;> exact ⟨rfl, rfl, rfl⟩

theorem bytesInOrder_iff {i : Instr} :
    i.bytesInOrder = true ↔ (i.operandBytes.2.1.isSome → i.operandBytes.1.isSome) ∧
      (i.operandBytes.2.2.isSome → i.operandBytes.2.1.isSome) := by
  have hpresent (a b : OperandByte) : (a.isNone || b.isSome) = true ↔ (a.isSome → b.isSome) := by
    cases a <;> simp
  rw [Instr.bytesInOrder, Bool.and_eq_true, hpresent, hpresent]

/-- The positions of a list, turned back into a list, are its first three bytes. -/
theorem toList_getElem?_eq_take (rest : List Byte) :
    rest[0]?.toList ++ rest[1]?.toList ++ rest[2]?.toList = rest.take 3 := by
  rcases rest with _ | ⟨a, _ | ⟨b, _ | ⟨c, rest⟩⟩⟩ <;> rfl

/-! ### The two round trips -/

theorem decode_encode_append {i : Instr} (h : WellFormed i = true) {rest : List Byte}
    (hrest : rest = [] ∨ i.operandBytes.2.2.isSome) : decode (encode i ++ rest) = some i := by
  obtain ⟨horder, hop⟩ := by simpa only [WellFormed, Bool.and_eq_true] using h
  obtain ⟨h2, h3⟩ := bytesInOrder_iff.1 horder
  obtain ⟨e1, e2, e3⟩ := getElem?_operandBytes h2 h3 hrest
  rw [encode, List.cons_append, decode_cons, e1, e2, e3, assemble_opcodeByte hop]

/-- Settles O1: the opcode byte and the positions of the operand bytes give back what was encoded, and bytes that follow
stand beyond those positions. -/
theorem decodeOfEncodeIsTheInstruction : Obligations.DecodeOfEncodeIsTheInstruction := by
  unfold Obligations.DecodeOfEncodeIsTheInstruction
  intro i h
  refine ⟨by simpa using decode_encode_append h (.inl rfl), fun hcomplete rest => ?_⟩
  have hlast : i.operandBytes.2.2.isSome := by
    simp only [Instr.complete, Bool.and_eq_true] at hcomplete
    exact hcomplete.2
  exact decode_encode_append h (.inr hlast)

/-- The operand bytes that a list of bytes gives have no hole, as a list has none. -/
theorem wellFormed_assemble_getElem? (op : Byte) (rest : List Byte) :
    WellFormed (assemble op rest[0]? rest[1]? rest[2]?) = true := by
  have horder : (assemble op rest[0]? rest[1]? rest[2]?).bytesInOrder = true := by
    simp only [bytesInOrder_iff, operandBytes_assemble, isSome_getElem?]
    omega
  simp only [WellFormed, horder, illegalOpcode_assemble, Bool.and_self]

/-- Settles O2: the decoder keeps the opcode byte and the three positions it looked at, so the encoder writes them back. -/
theorem encodeOfDecodeIsTheBytes : Obligations.EncodeOfDecodeIsTheBytes := by
  unfold Obligations.EncodeOfDecodeIsTheBytes
  intro bs i h
  cases bs with
  | nil => cases h
  | cons op rest =>
    obtain rfl : assemble op rest[0]? rest[1]? rest[2]? = i := by simpa [decode_cons] using h
    refine ⟨wellFormed_assemble_getElem? op rest, ?_⟩
    rw [encode, opcodeByte_assemble, operandBytes_assemble, toList_getElem?_eq_take, List.take_succ_cons]

/-- Settles O4: eight words, read byte by byte. -/
theorem wordsOfEachFormatDecode : Obligations.WordsOfEachFormatDecode := by
  unfold Obligations.WordsOfEachFormatDecode
  exact ⟨rfl, rfl, rfl, rfl, rfl, rfl, rfl, rfl⟩

end Sys2Proof.Machine
end

section
/-!
PROOFS. What a step answers in each run state, and the invariant it keeps.
-/

namespace Sys2Proof.Machine

/-! ### Every instruction and every step answers a next state -/

theorem finish_answers (s : State) (r : Except FaultCause State) : ∃ t, s.finish r = .next t := by
  cases r with
  | ok t => exact ⟨t, rfl⟩
  | error c => exact ⟨s.raiseFatal c, rfl⟩

/-- Every instruction's rule ends in a commit or a fault entry (R53). -/
theorem exec_eq_finish (i : Instr) (s : State) : ∃ r, exec i s = s.finish r := by
  cases i with
  | igl => exact ⟨.ok s.advance, rfl⟩
  | _ => exact ⟨_, rfl⟩

theorem exec_answers (i : Instr) (s : State) : ∃ t, exec i s = .next t := by
  obtain ⟨r, hr⟩ := exec_eq_finish i s
  exact hr ▸ finish_answers s r

theorem step_of_running_decode {s : State} {i : Instr} (hrun : s.runState = .running)
    (hi : decode s.fetchInstr = some i) : step s = exec i s := by
  simp only [step, executionCycle, hrun, hi]

theorem step_of_running_no_decode {s : State} (hrun : s.runState = .running)
    (hnone : decode s.fetchInstr = none) : step s = .next s.halt := by
  simp only [step, executionCycle, hrun, hnone]

theorem step_answers (s : State) : ∃ t, step s = .next t := by
  by_cases hrun : s.runState = .running
  · cases hi : decode s.fetchInstr with
    | none => exact ⟨s.halt, step_of_running_no_decode hrun hi⟩
    | some i => exact step_of_running_decode hrun hi ▸ exec_answers i s
  · exact ⟨s, step_of_not_running hrun⟩

theorem step_eq_next_afterStep (s : State) : step s = .next s.afterStep := by
  obtain ⟨t, ht⟩ := step_answers s
  rw [ht, afterStep_of_step ht]

/-- Settles O10: whatever an instruction's rule comes to, its end is a next state. -/
theorem everyStepAnswersANextState : Obligations.EveryStepAnswersANextState := by
  unfold Obligations.EveryStepAnswersANextState
  exact ⟨exec_answers, step_answers⟩

/-- Settles O5: the execution cycle adds nothing around the instruction. -/
theorem stepRunsTheDecodedInstruction : Obligations.StepRunsTheDecodedInstruction := by
  unfold Obligations.StepRunsTheDecodedInstruction
  exact fun s i hrun hi => step_of_running_decode hrun hi

/-- Settles O7: exhaustion is the halt of the execution cycle. -/
theorem exhaustionHaltsCleanly : Obligations.ExhaustionHaltsCleanly := by
  unfold Obligations.ExhaustionHaltsCleanly
  exact fun s hwf hrun hlen => step_of_exhausted hwf hrun hlen

/-! ### What a running machine's step can do -/

/-- The step of a running machine halts for want of an instruction, commits an instruction's effect, or enters a fault
(R51, R53). -/
theorem step_cases_of_running {s t : State} (hrun : s.runState = .running) (h : step s = .next t) :
    (decode s.fetchInstr = none ∧ t = s.halt) ∨ (∃ i, decode s.fetchInstr = some i ∧ Effect i s t) ∨
      FaultEntry s t := by
  cases hi : decode s.fetchInstr with
  | none =>
    have hhalt : s.halt = t := by simpa [step_of_running_no_decode hrun hi] using h
    exact .inl ⟨rfl, hhalt.symm⟩
  | some i =>
    rw [step_of_running_decode hrun hi] at h
    exact .inr ((exec_cases h).imp_left fun he => ⟨i, rfl, he⟩)

/-- No instruction that commits its writes records a cause (R21). -/
theorem Effect.faultCause {i : Instr} {s t : State} (h : Effect i s t) : t.faultCause = s.faultCause := by
  cases h <;> rfl

/-- Only HLT, with its padding there, writes RUNSTATE (R20, R78). -/
theorem Effect.runState {i : Instr} {s t : State} (h : Effect i s t) :
    t.runState = s.runState ∨
      (t.runState = .halted ∧ ∃ p q r : Byte, i = .hlt (some p) (some q) (some r)) := by
  cases h with
  | hlt p q r => exact .inr ⟨rfl, p, q, r, rfl⟩
  | _ => exact .inl rfl

/-! ### The invariant -/

/-- Only the buffer, RUNSTATE and FAULT_CAUSE matter to the invariant, and of RUNSTATE only whether it is FAULTED. -/
theorem inv_of_not_faulted {s t : State} (h : s.Inv) (hs : s.runState ≠ .faulted) (hprog : t.prog = s.prog)
    (hcause : t.faultCause = s.faultCause) (ht : t.runState ≠ .faulted) : t.Inv where
  progWf := hprog ▸ h.progWf
  lenLe := by simpa only [State.len, hprog] using h.lenLe
  causeIff := by simp only [hcause, h.causeIff.2 hs, ne_eq, ht, not_false_eq_true]

theorem FaultEntry.inv {s t : State} (hf : FaultEntry s t) (h : s.Inv) : t.Inv := by
  obtain ⟨c, hc, rfl⟩ := hf
  exact ⟨h.progWf, h.lenLe, by simp [hc]⟩

theorem step_inv {s t : State} (h : s.Inv) (hstep : step s = .next t) : t.Inv := by
  by_cases hrun : s.runState = .running
  · have hs : s.runState ≠ .faulted := by simp [hrun]
    rcases step_cases_of_running hrun hstep with ⟨_, rfl⟩ | ⟨i, _, he⟩ | hf
    · exact inv_of_not_faulted h hs rfl rfl (by simp)
    · exact inv_of_not_faulted h hs he.prog he.faultCause (he.runState_ne_faulted hs)
    · exact hf.inv h
  · obtain rfl : s = t := by simpa [step_of_not_running hrun] using hstep
    exact h

/-- Settles O11: a step leaves the buffer alone and records a cause exactly when it enters a fault. -/
theorem stepKeepsTheInvariant : Obligations.StepKeepsTheInvariant := by
  unfold Obligations.StepKeepsTheInvariant
  exact fun s t h hstep => step_inv h hstep

theorem appendByte_inv {s : State} (h : s.Inv) (b : Byte) : (s.appendByte b).2.Inv := by
  rw [State.appendByte]
  rcases appendByteWithin_cases Config.progCapacity b s with ⟨_, hfull⟩ | ⟨hroom, hok⟩
  · rw [hfull]
    exact h
  · rw [hok]
    refine ⟨append_wf h.progWf b, ?_, h.causeIff⟩
    have hle := h.lenLe
    simp only [State.len, append_length] at hroom hle ⊢
    omega

theorem afterOp_inv {s : State} (h : s.Inv) (op : HostOp) : (s.afterOp op).Inv := by
  cases op with
  | appendByte b => exact appendByte_inv h b
  | step => exact step_inv h (step_eq_next_afterStep s)
  | inspect => exact h

/-- Settles O13: each operation of the host keeps the invariant, so every sequence of them does. -/
theorem hostOperationsKeepTheInvariant : Obligations.HostOperationsKeepTheInvariant := by
  unfold Obligations.HostOperationsKeepTheInvariant
  exact fun s ops h => afterOps_keeps (P := State.Inv) (fun u op hu => afterOp_inv hu op) h ops

/-- Settles O12: the reset buffer is empty, and the reset machine runs with no cause recorded. -/
theorem resetMeetsTheInvariant : Obligations.ResetMeetsTheInvariant := by
  unfold Obligations.ResetMeetsTheInvariant
  exact ⟨wf_nil, Nat.zero_le _, by decide⟩

/-- Settles O14: every register is a cell of a constant vector, every other value is written out in the reset state. -/
theorem resetLeavesEveryValueOfTheTable : Obligations.ResetLeavesEveryValueOfTheTable := by
  unfold Obligations.ResetLeavesEveryValueOfTheTable
  refine ⟨rfl, fun i => ?_, rfl, rfl, rfl, rfl, rfl, rfl, rfl⟩
  simp only [State.readRegister, State.reg, State.reset, Vector.getElem_replicate]

/-- Settles O19: the two tables of numbers, row by row. -/
theorem codesAreTheTables : Obligations.CodesAreTheTables := by
  unfold Obligations.CodesAreTheTables
  exact ⟨rfl, rfl, rfl, rfl, rfl, rfl, rfl, rfl, rfl, rfl, rfl⟩

/-! ### Stopping -/

/-- Settles O9: a faulted machine is a stopped one, so the host changes its buffer alone. -/
theorem faultedIsPermanent : Obligations.FaultedIsPermanent := by
  unfold Obligations.FaultedIsPermanent
  intro s ops hs
  have hkept : SameButProg s (s.afterOps ops) := afterOps_sameButProg_of_not_running (by simp [hs]) ops
  refine ⟨step_of_faulted hs, hkept.eq_with_prog, ?_⟩
  rw [hkept.eq_with_prog]
  simp only [State.result, hs]

/-- Nothing decodes at the PC exactly at or beyond LEN (R34, R51). -/
theorem decode_fetchInstr_eq_none_iff {s : State} (hwf : s.prog.wf) :
    decode s.fetchInstr = none ↔ s.len ≤ s.pc.toNat := by
  rw [State.fetchInstr, decode_fetchBytes hwf, Option.map_eq_none_iff, read_eq_none_iff hwf]

/-- Settles O15: of the ways a running machine's step can end, two leave it HALTED: exhaustion and the effect of HLT. -/
theorem onlyHltAndExhaustionHalt : Obligations.OnlyHltAndExhaustionHalt := by
  unfold Obligations.OnlyHltAndExhaustionHalt
  intro s t hwf hrun hstep hhalted
  rcases step_cases_of_running hrun hstep with ⟨hnone, _⟩ | ⟨i, hi, he⟩ | ⟨c, _, rfl⟩
  · exact .inl ((decode_fetchInstr_eq_none_iff hwf).1 hnone)
  · rcases he.runState with hsame | ⟨_, p, q, r, rfl⟩
    · simp [hsame, hrun] at hhalted
    · exact .inr ⟨p, q, r, hi⟩
  · simp at hhalted

end Sys2Proof.Machine
end

section
/-!
PROOFS. Faults: precise, in the order of the operand bytes, and of the causes the table names.
-/

namespace Sys2Proof.Machine

/-- Settles O16: an instruction that leaves the machine FAULTED did nothing but enter the fault. -/
theorem faultsArePrecise : Obligations.FaultsArePrecise := by
  unfold Obligations.FaultsArePrecise
  intro i s t hs h ht
  obtain ⟨c, hc, rfl⟩ := faultEntry_of_exec_faulted hs h ht
  exact ⟨hc, rfl⟩

/-! ### The first operand fault is the one the checks come to -/

@[simp] theorem firstOperandFault_nil : firstOperandFault [] = none := rfl

theorem firstOperandFault_register {o : OperandByte} {l : List (Bool × OperandByte)} {c : FaultCause} :
    firstOperandFault ((true, o) :: l) = some c ↔
      regOperand o = .error c ∨ ∃ i, o = regByte i ∧ firstOperandFault l = some c := by
  cases o with
  | none => simp [firstOperandFault, regByte]
  | some b =>
    by_cases hb : b.toNat ≤ 31
    · have hok := regOperand_some_of_le hb
      simp [firstOperandFault, show ¬ 31 < b.toNat by omega, regOperand_eq_ok.1 hok, regByte_inj]
    · have hgt : 31 < b.toNat := by omega
      have hno (i : RegIdx) : some b ≠ regByte i := fun e => by
        simpa [regOperand_some_of_gt hgt] using regOperand_eq_ok.2 e
      simp [firstOperandFault, regOperand_some_of_gt hgt, hgt, hno]

theorem firstOperandFault_plain {o : OperandByte} {l : List (Bool × OperandByte)} {c : FaultCause} :
    firstOperandFault ((false, o) :: l) = some c ↔
      pad o = .error c ∨ (o.isSome ∧ firstOperandFault l = some c) := by
  cases o <;> simp [firstOperandFault]

theorem operandsRRR_eq_error_iff {rA rB rD : OperandByte} {c : FaultCause} :
    operandsRRR rA rB rD = .error c ↔ firstOperandFault [(true, rA), (true, rB), (true, rD)] = some c := by
  simp [operandsRRR_eq_error, firstOperandFault_register]

theorem operandsRR_eq_error_iff {rA rB p3 : OperandByte} {c : FaultCause} :
    operandsRR rA rB p3 = .error c ↔ firstOperandFault [(true, rA), (true, rB), (false, p3)] = some c := by
  simp [operandsRR_eq_error, firstOperandFault_register, firstOperandFault_plain]

theorem operandsRPP_eq_error_iff {r p2 p3 : OperandByte} {c : FaultCause} :
    operandsRPP r p2 p3 = .error c ↔ firstOperandFault [(true, r), (false, p2), (false, p3)] = some c := by
  simp [operandsRPP_eq_error, firstOperandFault_register, firstOperandFault_plain]

theorem regOperand_eq_error_iff {r : OperandByte} {c : FaultCause} :
    regOperand r = .error c ↔ firstOperandFault [(true, r)] = some c := by
  simp [firstOperandFault_register]

/-- One register byte and two more: LOAD, and an untaken conditional jump. -/
theorem firstOperandFault_register_plain_plain {r o2 o3 : OperandByte} {c : FaultCause} :
    firstOperandFault [(true, r), (false, o2), (false, o3)] = some c ↔
      regOperand r = .error c ∨ ∃ i, r = regByte i ∧ (o2 = none ∨ o3 = none) ∧ c = .operandOutOfBounds := by
  cases o2 <;> cases o3 <;> simp [firstOperandFault_register, firstOperandFault_plain, eq_comm (a := c)]

/-- The three padding bytes of HLT. -/
theorem firstOperandFault_plain_plain_plain {o1 o2 o3 : OperandByte} {c : FaultCause} :
    firstOperandFault [(false, o1), (false, o2), (false, o3)] = some c ↔
      (o1 = none ∨ o2 = none ∨ o3 = none) ∧ c = .operandOutOfBounds := by
  cases o1 <;> cases o2 <;> cases o3 <;> simp [firstOperandFault_plain, eq_comm (a := c)]

/-- The operand bytes a conditional jump fetches, by whether it is taken (R74, R75). -/
def jumpOperandsFetched (taken : Bool) (r p2 p3 : OperandByte) : List (Bool × OperandByte) :=
  if taken then [(true, r)] else [(true, r), (false, p2), (false, p3)]

theorem operandsFetched_jneq (r p2 p3 : OperandByte) (eqf : Bool) :
    operandsFetched (.jneq r p2 p3) eqf = jumpOperandsFetched (!eqf) r p2 p3 := by
  cases eqf <;> rfl

theorem firstOperandFault_jumpOperandsFetched {taken : Bool} {r p2 p3 : OperandByte} {c : FaultCause} :
    firstOperandFault (jumpOperandsFetched taken r p2 p3) = some c ↔
      regOperand r = .error c ∨
        ∃ i, r = regByte i ∧ taken = false ∧ (p2 = none ∨ p3 = none) ∧ c = .operandOutOfBounds := by
  cases taken with
  | true => simp [jumpOperandsFetched, firstOperandFault_register]
  | false => simp [jumpOperandsFetched, firstOperandFault_register_plain_plain]

/-! ### An operand fault decides, whatever the instruction -/

theorem conditionalJump_of_operandFault {taken : Bool} {r p2 p3 : OperandByte} {s : State} {c : FaultCause}
    (h : firstOperandFault (jumpOperandsFetched taken r p2 p3) = some c) :
    conditionalJump taken r p2 p3 s = .next (s.raiseFatal c) := by
  rcases firstOperandFault_jumpOperandsFetched.1 h with hc | ⟨i, hi, ht, hmissing, rfl⟩
  · exact conditionalJump_eq_next.2 (.inr ⟨c, hc, rfl⟩)
  · exact conditionalJump_eq_next.2 (.inl ⟨i, hi, .inr (.inr (.inr ⟨ht, hmissing, rfl⟩))⟩)

/-- The checks of the operand bytes come before anything else an instruction does (R46, R54). -/
theorem exec_of_operandFault {i : Instr} {s : State} {c : FaultCause}
    (h : firstOperandFault (operandsFetched i s.eqf) = some c) : exec i s = .next (s.raiseFatal c) := by
  cases i with
  | load rD hi lo =>
    rcases firstOperandFault_register_plain_plain.1 h with hc | ⟨d, hd, hmissing, rfl⟩
    · exact execLoad_eq_next.2 (.inr (.inl ⟨c, hc, rfl⟩))
    · exact execLoad_eq_next.2 (.inr (.inr ⟨d, hd, hmissing, rfl⟩))
  | add | sub | mul => exact exactArith_eq_next.2 (.inr ⟨c, operandsRRR_eq_error_iff.2 h, rfl⟩)
  | div => exact execDiv_eq_next.2 (.inr ⟨c, operandsRRR_eq_error_iff.2 h, rfl⟩)
  | jmp r p2 p3 => exact (execJmp_eq_next (p2 := p2) (p3 := p3)).2 (.inr ⟨c, regOperand_eq_error_iff.2 h, rfl⟩)
  | jmpf | jmpb => exact relativeJump_eq_next.2 (.inr ⟨c, regOperand_eq_error_iff.2 h, rfl⟩)
  | eq | neq | gt | lt | gtq | ltq => exact compareRegs_eq_next.2 (.inr ⟨c, operandsRR_eq_error_iff.2 h, rfl⟩)
  | jeq => exact conditionalJump_of_operandFault h
  | jneq r p2 p3 => exact conditionalJump_of_operandFault (operandsFetched_jneq r p2 p3 s.eqf ▸ h)
  | inc | dec => exact addToReg_eq_next.2 (.inr ⟨c, operandsRPP_eq_error_iff.2 h, rfl⟩)
  | hlt =>
    obtain ⟨hmissing, rfl⟩ := firstOperandFault_plain_plain_plain.1 h
    exact execHlt_eq_next.2 (.inr ⟨hmissing, rfl⟩)
  | igl => cases h

/-! ### The cause of a fault: the first operand fault, or one of the instruction's own -/

/-- A cause that the rule of `i` can come to after its operand checks: in the table's column for `i`, and no operand
fault (R54, R80). -/
def OwnCause (i : Instr) (eqf : Bool) (c : FaultCause) : Prop :=
  raisedBy c i eqf = true ∧ c ≠ .operandOutOfBounds ∧ c ≠ .invalidRegister

theorem conditionalJump_cause {taken : Bool} {r p2 p3 : OperandByte} {s t : State} (hs : s.runState ≠ .faulted)
    (h : conditionalJump taken r p2 p3 s = .next t) (ht : t.runState = .faulted) :
    firstOperandFault (jumpOperandsFetched taken r p2 p3) = some t.faultCause ∨
      (taken = true ∧ t.faultCause = .negativeJumpOperand) := by
  rw [firstOperandFault_jumpOperandsFetched]
  rcases conditionalJump_eq_next.1 h with
    ⟨i, hi, ⟨_, _, rfl⟩ | ⟨htaken, _, rfl⟩ | ⟨_, _, _, rfl⟩ | ⟨htaken, hmissing, rfl⟩⟩ | ⟨c, hc, rfl⟩
  · exact absurd ht hs
  · exact .inr ⟨htaken, rfl⟩
  · exact absurd ht hs
  · exact .inl (.inr ⟨i, hi, htaken, hmissing, rfl⟩)
  · exact .inl (.inl hc)

theorem cause_of_exec_faulted {i : Instr} {s t : State} (hs : s.runState ≠ .faulted) (h : exec i s = .next t)
    (ht : t.runState = .faulted) :
    firstOperandFault (operandsFetched i s.eqf) = some t.faultCause ∨ OwnCause i s.eqf t.faultCause := by
  cases i with
  | load =>
    refine .inl (firstOperandFault_register_plain_plain.2 ?_)
    rcases execLoad_eq_next.1 h with ⟨_, _, _, _, _, _, rfl⟩ | ⟨c, hc, rfl⟩ | ⟨d, hd, hmissing, rfl⟩
    · exact absurd ht hs
    · exact .inl hc
    · exact .inr ⟨d, hd, hmissing, rfl⟩
  | add | sub | mul =>
    rcases exactArith_eq_next.1 h with ⟨_, _, _, _, _, _, ⟨_, rfl⟩ | ⟨_, rfl⟩⟩ | ⟨c, hc, rfl⟩
    · exact absurd ht hs
    · exact .inr ⟨rfl, by simp, by simp⟩
    · exact .inl (operandsRRR_eq_error_iff.1 hc)
  | div =>
    rcases execDiv_eq_next.1 h with ⟨_, _, _, _, _, _, ⟨_, _, _, rfl⟩ | ⟨c, hc, rfl⟩⟩ | ⟨c, hc, rfl⟩
    · exact absurd ht hs
    · rcases divide_eq_error.1 hc with ⟨_, rfl⟩ | ⟨_, _, rfl⟩ <;> exact .inr ⟨rfl, by simp, by simp⟩
    · exact .inl (operandsRRR_eq_error_iff.1 hc)
  | jmp r p2 p3 =>
    rcases (execJmp_eq_next (p2 := p2) (p3 := p3)).1 h with ⟨_, _, ⟨_, rfl⟩ | ⟨_, rfl⟩⟩ | ⟨c, hc, rfl⟩
    · exact absurd ht hs
    · exact .inr ⟨rfl, by simp, by simp⟩
    · exact .inl (regOperand_eq_error_iff.1 hc)
  | jmpf =>
    rcases (relativeJump_eq_next (target := forwardTarget)).1 h with
      ⟨_, _, ⟨_, _, _, rfl⟩ | ⟨_, c, hc, rfl⟩ | ⟨_, rfl⟩⟩ | ⟨c, hc, rfl⟩
    · exact absurd ht hs
    · obtain ⟨_, rfl⟩ := forwardTarget_eq_error.1 hc
      exact .inr ⟨rfl, by simp, by simp⟩
    · exact .inr ⟨rfl, by simp, by simp⟩
    · exact .inl (regOperand_eq_error_iff.1 hc)
  | jmpb =>
    rcases (relativeJump_eq_next (target := backwardTarget)).1 h with
      ⟨_, _, ⟨_, _, _, rfl⟩ | ⟨_, c, hc, rfl⟩ | ⟨_, rfl⟩⟩ | ⟨c, hc, rfl⟩
    · exact absurd ht hs
    · obtain ⟨_, rfl⟩ := backwardTarget_eq_error.1 hc
      exact .inr ⟨rfl, by simp, by simp⟩
    · exact .inr ⟨rfl, by simp, by simp⟩
    · exact .inl (regOperand_eq_error_iff.1 hc)
  | eq | neq | gt | lt | gtq | ltq =>
    rcases compareRegs_eq_next.1 h with ⟨_, _, _, _, _, rfl⟩ | ⟨c, hc, rfl⟩
    · exact absurd ht hs
    · exact .inl (operandsRR_eq_error_iff.1 hc)
  | jeq =>
    refine (conditionalJump_cause hs h ht).imp_right fun ⟨htaken, hc⟩ => ?_
    exact hc ▸ ⟨htaken, by simp, by simp⟩
  | jneq r p2 p3 =>
    rw [operandsFetched_jneq]
    refine (conditionalJump_cause hs h ht).imp_right fun ⟨htaken, hc⟩ => ?_
    exact hc ▸ ⟨htaken, by simp, by simp⟩
  | inc | dec =>
    rcases addToReg_eq_next.1 h with ⟨_, _, _, _, ⟨_, rfl⟩ | ⟨_, rfl⟩⟩ | ⟨c, hc, rfl⟩
    · exact absurd ht hs
    · exact .inr ⟨rfl, by simp, by simp⟩
    · exact .inl (operandsRPP_eq_error_iff.1 hc)
  | hlt =>
    rcases execHlt_eq_next.1 h with ⟨_, _, _, rfl⟩ | ⟨hmissing, rfl⟩
    · simp at ht
    · exact .inl (firstOperandFault_plain_plain_plain.2 ⟨hmissing, rfl⟩)
  | igl =>
    obtain rfl : s.advance = _ := by simpa [exec] using h
    exact absurd ht hs

/-- Settles O18: the operand checks come first and stop at the first that fails; what faults after them is one of the
instruction's own causes. -/
theorem operandFaultsComeInByteOrder : Obligations.OperandFaultsComeInByteOrder := by
  unfold Obligations.OperandFaultsComeInByteOrder
  intro i s
  refine ⟨fun c hc => exec_of_operandFault hc, fun t hnone hs h ht => ?_⟩
  rcases cause_of_exec_faulted hs h ht with hc | ⟨_, hbounds, hregister⟩
  · simp [hnone] at hc
  · exact ⟨hbounds, hregister⟩

/-- An operand fault needs an operand byte, and INVALID_REGISTER a register operand. -/
theorem firstOperandFault_cases {l : List (Bool × OperandByte)} {c : FaultCause} (h : firstOperandFault l = some c) :
    (c = .operandOutOfBounds ∧ l ≠ []) ∨ (c = .invalidRegister ∧ ∃ o, (true, o) ∈ l) := by
  induction l with
  | nil => cases h
  | cons entry l ih =>
    obtain ⟨isReg, o⟩ := entry
    have hrest : firstOperandFault l = some c →
        (c = .operandOutOfBounds ∧ (isReg, o) :: l ≠ []) ∨
          (c = .invalidRegister ∧ ∃ o', (true, o') ∈ (isReg, o) :: l) := fun hl =>
      (ih hl).imp (fun ⟨hc, _⟩ => ⟨hc, by simp⟩) fun ⟨hc, o', hmem⟩ => ⟨hc, o', by simp [hmem]⟩
    cases isReg with
    | true =>
      rcases firstOperandFault_register.1 h with hc | ⟨_, _, hl⟩
      · exact (regOperand_eq_error.1 hc).imp (fun ⟨_, hc⟩ => ⟨hc, by simp⟩) fun ⟨_, _, _, hc⟩ => ⟨hc, o, by simp⟩
      · exact hrest hl
    | false =>
      rcases firstOperandFault_plain.1 h with hc | ⟨_, hl⟩
      · exact .inl ⟨(pad_eq_error.1 hc).2, by simp⟩
      · exact hrest hl

/-- The table names every instruction for the operand faults it can take: IGL has no operand byte, HLT no register
operand (R80). -/
theorem raisedBy_of_operandFault {i : Instr} {eqf : Bool} {c : FaultCause}
    (h : firstOperandFault (operandsFetched i eqf) = some c) : raisedBy c i eqf = true := by
  rcases firstOperandFault_cases h with ⟨rfl, hne⟩ | ⟨rfl, o, hmem⟩
  · cases i with
    | igl => exact absurd rfl hne
    | _ => rfl
  · cases i with
    | hlt | igl => simp [operandsFetched] at hmem
    | _ => rfl

/-- Settles O17: a fault's cause is an operand fault of the instruction or one of its own, and the table names it for
either. -/
theorem causesAreRaisedByTheTable : Obligations.CausesAreRaisedByTheTable := by
  unfold Obligations.CausesAreRaisedByTheTable
  intro i s t hs h ht
  rcases cause_of_exec_faulted hs h ht with hc | ⟨hraised, _⟩
  · exact raisedBy_of_operandFault hc
  · exact hraised

end Sys2Proof.Machine
end

section
/-!
PROOFS. Frames: what each instruction leaves unchanged, and what it does not read.
-/

namespace Sys2Proof.Machine

/-! ### What an effect and a fault entry leave unchanged -/

theorem x_setReg_of_ne {s : State} {d j : RegIdx} {w : Word} (h : d ≠ j) : (s.setReg d w).x[j.val] = s.x[j.val] := by
  have hread := reg_setReg s d j w
  rwa [if_neg h] at hread

/-- The only register an instruction writes is the one its destination byte names (R13). -/
theorem Effect.register_of_not_written {i : Instr} {s t : State} (h : Effect i s t) {j : RegIdx}
    (hj : regByte j ∉ registersWritten i) : t.x[j.val] = s.x[j.val] := by
  cases h with
  | load | add | sub | mul | div | inc | dec =>
    exact x_setReg_of_ne fun e => hj (by simp [registersWritten, e])
  | _ => rfl

/-- Only DIV writes REM (R19). -/
theorem Effect.rem_of_not_div {i : Instr} {s t : State} (h : Effect i s t) (hi : ∀ rA rB rD, i ≠ .div rA rB rD) :
    t.rem = s.rem := by
  cases h with
  | div => exact absurd rfl (hi _ _ _)
  | _ => rfl

theorem FaultEntry.x {s t : State} (h : FaultEntry s t) : t.x = s.x := by
  obtain ⟨c, _, rfl⟩ := h
  rfl

theorem FaultEntry.rem {s t : State} (h : FaultEntry s t) : t.rem = s.rem := by
  obtain ⟨c, _, rfl⟩ := h
  rfl

theorem FaultEntry.eq_with_cause {s t : State} (h : FaultEntry s t) :
    t = { s with runState := .faulted, faultCause := t.faultCause } := by
  obtain ⟨c, _, rfl⟩ := h
  rfl

theorem exec_register_of_not_written {i : Instr} {s t : State} {j : RegIdx} (hj : regByte j ∉ registersWritten i)
    (h : exec i s = .next t) : t.x[j.val] = s.x[j.val] :=
  (exec_cases h).elim (fun he => he.register_of_not_written hj) fun hf => by rw [hf.x]

theorem exec_rem_of_not_div {i : Instr} {s t : State} (hi : ∀ rA rB rD, i ≠ .div rA rB rD) (h : exec i s = .next t) :
    t.rem = s.rem :=
  (exec_cases h).elim (fun he => he.rem_of_not_div hi) FaultEntry.rem

theorem exec_runState_of_not_hlt {i : Instr} {s t : State} (hi : ∀ p1 p2 p3, i ≠ .hlt p1 p2 p3)
    (h : exec i s = .next t) :
    (t.runState = s.runState ∧ t.faultCause = s.faultCause) ∨
      t = { s with runState := .faulted, faultCause := t.faultCause } := by
  rcases exec_cases h with he | hf
  · rcases he.runState with hsame | ⟨_, p, q, r, rfl⟩
    · exact .inl ⟨hsame, he.faultCause⟩
    · exact absurd rfl (hi _ _ _)
  · exact .inr hf.eq_with_cause

theorem exec_read {i : Instr} {s t : State} (h : exec i s = .next t) (a : Nat) : t.prog.read a = s.prog.read a := by
  rw [exec_prog h]

/-! ### The frames -/

/-- Settles O25: seven register writers, none of them a comparison or HLT, one of them DIV. -/
theorem frameOfRegisterWriters : Obligations.FrameOfRegisterWriters := by
  unfold Obligations.FrameOfRegisterWriters
  intro i b1 b2 b3 s t hi h
  simp only [List.mem_cons, List.not_mem_nil, or_false] at hi
  obtain ⟨hcmp, hhlt⟩ : isComparison i = false ∧ ∀ p1 p2 p3, i ≠ .hlt p1 p2 p3 := by
    rcases hi with rfl | rfl | rfl | rfl | rfl | rfl | rfl <;> simp [isComparison]
  have hdiv (hne : i ≠ .div b1 b2 b3) : ∀ rA rB rD, i ≠ .div rA rB rD := by
    revert hne
    rcases hi with rfl | rfl | rfl | rfl | rfl | rfl | rfl <;> simp
  exact ⟨fun j hj => exec_register_of_not_written hj h, exec_eqf_of_not_comparison hcmp h,
    fun hne => exec_rem_of_not_div (hdiv hne) h, exec_runState_of_not_hlt hhlt h, exec_read h⟩

/-- Settles O26: six comparisons, none of which writes a register or is DIV or HLT. -/
theorem frameOfComparisons : Obligations.FrameOfComparisons := by
  unfold Obligations.FrameOfComparisons
  intro i b1 b2 b3 s t hi h
  simp only [List.mem_cons, List.not_mem_nil, or_false] at hi
  obtain ⟨hregs, hhlt, hdiv⟩ : registersWritten i = [] ∧ (∀ p1 p2 p3, i ≠ .hlt p1 p2 p3) ∧
      ∀ rA rB rD, i ≠ .div rA rB rD := by
    rcases hi with rfl | rfl | rfl | rfl | rfl | rfl <;> simp [registersWritten]
  exact ⟨fun j => exec_register_of_not_written (by simp [hregs]) h, exec_rem_of_not_div hdiv h,
    exec_runState_of_not_hlt hhlt h, exec_read h⟩

/-- Settles O27: five jumps, none of which writes a register or is a comparison, DIV or HLT. -/
theorem frameOfJumps : Obligations.FrameOfJumps := by
  unfold Obligations.FrameOfJumps
  intro i b1 b2 b3 s t hi h
  simp only [List.mem_cons, List.not_mem_nil, or_false] at hi
  obtain ⟨hregs, hcmp, hhlt, hdiv⟩ : registersWritten i = [] ∧ isComparison i = false ∧
      (∀ p1 p2 p3, i ≠ .hlt p1 p2 p3) ∧ ∀ rA rB rD, i ≠ .div rA rB rD := by
    rcases hi with rfl | rfl | rfl | rfl | rfl <;> simp [registersWritten, isComparison]
  exact ⟨fun j => exec_register_of_not_written (by simp [hregs]) h, exec_eqf_of_not_comparison hcmp h,
    exec_rem_of_not_div hdiv h, exec_runState_of_not_hlt hhlt h, exec_read h⟩

/-- Settles O28: the effect of HLT halts and that of IGL only advances; HLT alone can fault. -/
theorem frameOfHaltAndIllegal : Obligations.FrameOfHaltAndIllegal := by
  unfold Obligations.FrameOfHaltAndIllegal
  intro i op b1 b2 b3 s t hi h
  simp only [List.mem_cons, List.not_mem_nil, or_false] at hi
  obtain ⟨hregs, hcmp, hdiv⟩ : registersWritten i = [] ∧ isComparison i = false ∧ ∀ rA rB rD, i ≠ .div rA rB rD := by
    rcases hi with rfl | rfl <;> simp [registersWritten, isComparison]
  refine ⟨fun j => exec_register_of_not_written (by simp [hregs]) h, exec_eqf_of_not_comparison hcmp h,
    exec_rem_of_not_div hdiv h, ?igl, ?hlt, exec_read h⟩
  case igl =>
    rintro rfl
    obtain rfl : s.advance = t := by simpa [exec] using h
    exact ⟨rfl, rfl⟩
  case hlt =>
    rintro rfl
    rcases exec_cases h with he | hf
    · cases he
      exact .inl ⟨rfl, rfl⟩
    · exact .inr hf.eq_with_cause

/-! ### The remainder register -/

/-- `u` is `s` but for the remainder register. -/
def SameButRem (s u : State) : Prop := ∃ w, u = s.setRem w

theorem SameButRem.readsSame : ReadsSame SameButRem where
  reg := by rintro s _ ⟨v, rfl⟩ i; rfl
  pc := by rintro s _ ⟨v, rfl⟩; rfl
  setReg := by rintro s _ ⟨v, rfl⟩ i w; exact ⟨v, rfl⟩
  setPc := by rintro s _ ⟨v, rfl⟩ w; exact ⟨v, rfl⟩
  setRem := by rintro s _ ⟨v, rfl⟩ w; exact ⟨w, rfl⟩
  setEqf := by rintro s _ ⟨v, rfl⟩ b; exact ⟨v, rfl⟩
  halt := by rintro s _ ⟨v, rfl⟩; exact ⟨v, rfl⟩
  raiseFatal := by rintro s _ ⟨v, rfl⟩ c; exact ⟨v, rfl⟩

/-- Settles O22: who writes REM is read off the effects, and that no one reads it off two runs that differ in it. -/
theorem onlyDivTouchesTheRemainder : Obligations.OnlyDivTouchesTheRemainder := by
  unfold Obligations.OnlyDivTouchesTheRemainder
  refine ⟨fun i s t hi h => exec_rem_of_not_div hi h,
    fun i s t hs h ht => (faultEntry_of_exec_faulted hs h ht).rem, fun i s t u w ht hu => ?_⟩
  obtain ⟨v, rfl⟩ := SameButRem.readsSame.exec_related ⟨w, rfl⟩ (fun _ => rfl) t u ht hu
  rfl

/-! ### The program buffer as data -/

/-- `u` is `s` with the program buffer `m`. -/
def WithProg (m : Memory) (s u : State) : Prop := u = { s with prog := m }

theorem WithProg.readsSame (m : Memory) : ReadsSame (WithProg m) where
  reg := by rintro s _ rfl i; rfl
  pc := by rintro s _ rfl; rfl
  setReg := by rintro s _ rfl i w; rfl
  setPc := by rintro s _ rfl w; rfl
  setRem := by rintro s _ rfl w; rfl
  setEqf := by rintro s _ rfl b; rfl
  halt := by rintro s _ rfl; rfl
  raiseFatal := by rintro s _ rfl c; rfl

/-- Settles O24: two runs that differ in the whole buffer differ in it afterwards, and in nothing else. -/
theorem noInstructionReadsTheBufferAsData : Obligations.NoInstructionReadsTheBufferAsData := by
  unfold Obligations.NoInstructionReadsTheBufferAsData
  intro i s t u m ht hu
  exact (WithProg.readsSame m).exec_related rfl (fun _ => rfl) t u ht hu

/-! ### Registers that an instruction does not read -/

/-- `u` is `s` but for register `j`. -/
def SameButReg (j : RegIdx) (s u : State) : Prop := ∃ w, u = s.setReg j w

namespace SameButReg

variable {j : RegIdx} {s u : State}

theorem reg_of_ne (h : SameButReg j s u) {i : RegIdx} (hi : j ≠ i) : u.reg i = s.reg i := by
  obtain ⟨w, rfl⟩ := h
  rw [reg_setReg, if_neg hi]

theorem pc (h : SameButReg j s u) : u.pc = s.pc := by
  obtain ⟨w, rfl⟩ := h
  rfl

/-- A write to `j` makes the two states equal, one to another register keeps the difference. -/
theorem setReg (h : SameButReg j s u) (i : RegIdx) (v : Word) : SameButReg j (s.setReg i v) (u.setReg i v) := by
  obtain ⟨w, rfl⟩ := h
  by_cases hij : i = j
  · subst hij
    exact ⟨v, by simp [State.setReg, Vector.set_set]⟩
  · have hne : j.val ≠ i.val := fun e => hij (Fin.ext e.symm)
    exact ⟨w, by simp [State.setReg, Vector.set_comm _ _ hne]⟩

theorem setPc (h : SameButReg j s u) (t : Word) : SameButReg j (s.setPc t) (u.setPc t) := by
  obtain ⟨w, rfl⟩ := h
  exact ⟨w, rfl⟩

theorem advance (h : SameButReg j s u) : SameButReg j s.advance u.advance := by
  obtain ⟨w, rfl⟩ := h
  exact ⟨w, rfl⟩

theorem setRem (h : SameButReg j s u) (r : Word) : SameButReg j (s.setRem r) (u.setRem r) := by
  obtain ⟨w, rfl⟩ := h
  exact ⟨w, rfl⟩

theorem setEqf (h : SameButReg j s u) (b : Bool) : SameButReg j (s.setEqf b) (u.setEqf b) := by
  obtain ⟨w, rfl⟩ := h
  exact ⟨w, rfl⟩

theorem halt (h : SameButReg j s u) : SameButReg j s.halt u.halt := by
  obtain ⟨w, rfl⟩ := h
  exact ⟨w, rfl⟩

theorem raiseFatal (h : SameButReg j s u) (c : FaultCause) : SameButReg j (s.raiseFatal c) (u.raiseFatal c) := by
  obtain ⟨w, rfl⟩ := h
  exact ⟨w, rfl⟩

/-- One check of an instruction's rule, as in `ReadsSame.finish_bind`; what follows it may use what it answered. -/
theorem finish_bind {α : Type} (h : SameButReg j s u) (r : Except FaultCause α) {f g : α → Except FaultCause State}
    (hfg : ∀ a, r = .ok a → NextRelated (SameButReg j) (s.finish (f a)) (u.finish (g a))) :
    NextRelated (SameButReg j) (s.finish (r >>= f)) (u.finish (r >>= g)) := by
  cases r with
  | error c => exact nextRelated_next (h.raiseFatal c)
  | ok a => exact hfg a rfl

theorem exactArith_related (h : SameButReg j s u) (f : Int → Int → Int) {rA rB rD : OperandByte}
    (hj : regByte j ∉ [rA, rB]) : NextRelated (SameButReg j) (exactArith f rA rB rD s) (exactArith f rA rB rD u) := by
  refine h.finish_bind _ fun ⟨a, b, d⟩ hops => ?_
  obtain ⟨rfl, rfl, rfl⟩ := operandsRRR_eq_ok.1 hops
  simp only [List.mem_cons, regByte_inj, List.not_mem_nil, or_false, not_or] at hj
  simp only [h.reg_of_ne hj.1, h.reg_of_ne hj.2]
  exact h.finish_bind _ fun w _ => nextRelated_next (h.setReg d w).advance

theorem execDiv_related (h : SameButReg j s u) {rA rB rD : OperandByte} (hj : regByte j ∉ [rA, rB]) :
    NextRelated (SameButReg j) (execDiv rA rB rD s) (execDiv rA rB rD u) := by
  refine h.finish_bind _ fun ⟨a, b, d⟩ hops => ?_
  obtain ⟨rfl, rfl, rfl⟩ := operandsRRR_eq_ok.1 hops
  simp only [List.mem_cons, regByte_inj, List.not_mem_nil, or_false, not_or] at hj
  simp only [h.reg_of_ne hj.1, h.reg_of_ne hj.2]
  exact h.finish_bind _ fun ⟨q, r⟩ _ => nextRelated_next ((h.setReg d q).setRem r).advance

theorem compareRegs_related (h : SameButReg j s u) (rel : Int → Int → Bool) {rA rB p3 : OperandByte}
    (hj : regByte j ∉ [rA, rB]) :
    NextRelated (SameButReg j) (compareRegs rel rA rB p3 s) (compareRegs rel rA rB p3 u) := by
  refine h.finish_bind _ fun ⟨a, b⟩ hops => ?_
  obtain ⟨rfl, rfl, _⟩ := operandsRR_eq_ok.1 hops
  simp only [List.mem_cons, regByte_inj, List.not_mem_nil, or_false, not_or] at hj
  simp only [h.reg_of_ne hj.1, h.reg_of_ne hj.2]
  exact nextRelated_next (h.setEqf _).advance

theorem addToReg_related (h : SameButReg j s u) (k : Int) {r p2 p3 : OperandByte} (hj : regByte j ∉ [r]) :
    NextRelated (SameButReg j) (addToReg k r p2 p3 s) (addToReg k r p2 p3 u) := by
  refine h.finish_bind _ fun i hops => ?_
  obtain ⟨rfl, _, _⟩ := operandsRPP_eq_ok.1 hops
  simp only [List.mem_singleton, regByte_inj] at hj
  rw [h.reg_of_ne hj]
  exact h.finish_bind _ fun w _ => nextRelated_next (h.setReg i w).advance

theorem conditionalJump_related (h : SameButReg j s u) (taken : Bool) {r p2 p3 : OperandByte}
    (hj : taken = true → regByte j ∉ [r]) :
    NextRelated (SameButReg j) (conditionalJump taken r p2 p3 s) (conditionalJump taken r p2 p3 u) := by
  refine h.finish_bind _ fun i hops => ?_
  obtain rfl := regOperand_eq_ok.1 hops
  cases taken with
  | true =>
    simp only [List.mem_singleton, regByte_inj, forall_const] at hj
    rw [h.reg_of_ne hj]
    exact h.finish_bind _ fun t _ => nextRelated_next (h.setPc _)
  | false => exact h.finish_bind _ fun _ _ => h.finish_bind _ fun _ _ => nextRelated_next h.advance

theorem execLoad_related (h : SameButReg j s u) (rD hi lo : OperandByte) :
    NextRelated (SameButReg j) (execLoad rD hi lo s) (execLoad rD hi lo u) :=
  h.finish_bind _ fun d _ => h.finish_bind _ fun _ _ => h.finish_bind _ fun _ _ =>
    nextRelated_next (h.setReg d _).advance

theorem execJmp_related (h : SameButReg j s u) {r p2 p3 : OperandByte} (hj : regByte j ∉ [r]) :
    NextRelated (SameButReg j) (execJmp r p2 p3 s) (execJmp r p2 p3 u) := by
  refine h.finish_bind _ fun i hops => ?_
  obtain rfl := regOperand_eq_ok.1 hops
  simp only [List.mem_singleton, regByte_inj] at hj
  rw [h.reg_of_ne hj]
  exact h.finish_bind _ fun t _ => nextRelated_next (h.setPc _)

theorem relativeJump_related (h : SameButReg j s u) (target : Word → Nat → Except FaultCause Word) {r : OperandByte}
    (hj : regByte j ∉ [r]) : NextRelated (SameButReg j) (relativeJump target r s) (relativeJump target r u) := by
  refine h.finish_bind _ fun i hops => ?_
  obtain rfl := regOperand_eq_ok.1 hops
  simp only [List.mem_singleton, regByte_inj] at hj
  rw [h.reg_of_ne hj, h.pc]
  exact h.finish_bind _ fun v _ => h.finish_bind _ fun t _ => nextRelated_next (h.setPc t)

theorem execHlt_related (h : SameButReg j s u) (p1 p2 p3 : OperandByte) :
    NextRelated (SameButReg j) (execHlt p1 p2 p3 s) (execHlt p1 p2 p3 u) :=
  h.finish_bind _ fun _ _ => h.finish_bind _ fun _ _ => h.finish_bind _ fun _ _ => nextRelated_next h.advance.halt

/-- Two runs of an instruction that differ in a register it does not read differ in that register at most (R13). -/
theorem exec_related (h : SameButReg j s u) (heqf : u.eqf = s.eqf) {i : Instr} (hj : regByte j ∉ registersRead i s.eqf) :
    NextRelated (SameButReg j) (exec i s) (exec i u) := by
  cases i with
  | load rD hi lo => exact h.execLoad_related rD hi lo
  | add | sub | mul => exact h.exactArith_related _ hj
  | div => exact h.execDiv_related hj
  | jmp r p2 p3 => exact h.execJmp_related (p2 := p2) (p3 := p3) hj
  | jmpf => exact h.relativeJump_related forwardTarget hj
  | jmpb => exact h.relativeJump_related backwardTarget hj
  | eq | neq | gt | lt | gtq | ltq => exact h.compareRegs_related _ hj
  | jeq =>
    simp only [exec, execJeq, heqf]
    exact h.conditionalJump_related _ fun htaken => by simpa [registersRead, htaken] using hj
  | jneq =>
    simp only [exec, execJneq, heqf]
    refine h.conditionalJump_related _ fun htaken => ?_
    have hclear : s.eqf = false := by simpa using htaken
    simpa [registersRead, hclear] using hj
  | inc | dec => exact h.addToReg_related _ hj
  | hlt p1 p2 p3 => exact h.execHlt_related p1 p2 p3
  | igl => exact nextRelated_next h.advance

end SameButReg

/-- A destination reads back the exact result that was written to it (R8, R57). -/
theorem toInt_setReg_wordOf (s : State) (d : RegIdx) {n : Int} (hn : inWordRange n) :
    (s.setReg d (wordOf n)).x[d.val].toInt = n := by
  have hread : (s.setReg d (wordOf n)).x[d.val] = wordOf n := by simp
  rw [hread]
  exact sint_wordOf hn

/-- Settles O23: the destination is the one register written, two runs that differ in an unread register differ there at
most, and the sources are read in the state the step began in. -/
theorem registersReadAndWrittenAreTheTables : Obligations.RegistersReadAndWrittenAreTheTables := by
  unfold Obligations.RegistersReadAndWrittenAreTheTables
  refine ⟨fun i s t j hj h => exec_register_of_not_written hj h, ?unread, ?aliasing⟩
  case unread =>
    intro i s t u j k w hj ht hu
    have hsame : SameButReg j s (s.setReg j w) := ⟨w, rfl⟩
    obtain ⟨v, rfl⟩ := hsame.exec_related rfl hj t u ht hu
    exact ⟨rfl, rfl, rfl, rfl, rfl, rfl, fun hk => x_setReg_of_ne hk.symm⟩
  case aliasing =>
    intro a b d s t
    refine ⟨fun hr h => ?_, fun hr h => ?_, fun hr h => ?_⟩
    · obtain rfl := Host.Outcome.next.inj ((Effect.add a b d s hr).exec_eq.symm.trans h)
      exact toInt_setReg_wordOf s d hr
    · obtain rfl := Host.Outcome.next.inj ((Effect.sub a b d s hr).exec_eq.symm.trans h)
      exact toInt_setReg_wordOf s d hr
    · obtain rfl := Host.Outcome.next.inj ((Effect.mul a b d s hr).exec_eq.symm.trans h)
      exact toInt_setReg_wordOf s d hr

end Sys2Proof.Machine
end

section
/-!
PROOFS. What each instruction does: its completion, and the faults of its own.
-/

namespace Sys2Proof.Machine

/-! ### Load -/

theorem imm16_eq_ofNat (hi lo : Byte) : imm16 hi lo = BitVec.ofNat 32 (hi.toNat * 256 + lo.toNat) := by
  apply BitVec.eq_of_toNat_eq
  have hhi := hi.isLt
  have hlo := lo.isLt
  rw [imm16_toNat, BitVec.toNat_ofNat, Nat.mod_eq_of_lt (by omega)]

/-- An immediate is below 2^16, so it is a non-negative value (R42). -/
theorem toInt_imm16 (hi lo : Byte) : (imm16 hi lo).toInt = hi.toNat * 256 + lo.toNat := by
  have hhi := hi.isLt
  have hlo := lo.isLt
  rw [BitVec.toInt_eq_toNat_of_lt (by rw [imm16_toNat]; omega), imm16_toNat]
  simp

/-- Settles O29: the effect of LOAD, with its immediate read as a number. -/
theorem loadWritesItsImmediate : Obligations.LoadWritesItsImmediate := by
  unfold Obligations.LoadWritesItsImmediate
  intro d hi lo s
  rw [← imm16_eq_ofNat]
  exact ⟨(Effect.load d hi lo s).exec_eq, toInt_imm16 hi lo⟩

/-! ### Arithmetic -/

/-- Settles O30: the effects of ADD, SUB and MUL, whose word reads back as the exact result. -/
theorem addSubMulWriteTheExactResult : Obligations.AddSubMulWriteTheExactResult := by
  unfold Obligations.AddSubMulWriteTheExactResult
  intro a b d s
  exact ⟨fun hr => ⟨_, sint_wordOf hr, (Effect.add a b d s hr).exec_eq⟩,
    fun hr => ⟨_, sint_wordOf hr, (Effect.sub a b d s hr).exec_eq⟩,
    fun hr => ⟨_, sint_wordOf hr, (Effect.mul a b d s hr).exec_eq⟩⟩

/-- Settles O31: away from the end of the range the exact sum is in it. -/
theorem incAndDecAdjustByOne : Obligations.IncAndDecAdjustByOne := by
  unfold Obligations.IncAndDecAdjustByOne
  intro r p2 p3 s
  obtain ⟨hlo, hhi⟩ : inWordRange s.x[r.val].toInt := sint_inWordRange (s.reg r)
  refine ⟨fun hne => ?_, fun hne => ?_⟩
  · have hr : inWordRange (s.x[r.val].toInt + 1) := ⟨by omega, by omega⟩
    exact ⟨_, sint_wordOf hr, (Effect.inc r p2 p3 s hr).exec_eq⟩
  · have hr : inWordRange (s.x[r.val].toInt + -1) := ⟨by omega, by omega⟩
    exact ⟨_, sint_wordOf hr, (Effect.dec r p2 p3 s hr).exec_eq⟩

theorem exactArith_of_not_inWordRange {f : Int → Int → Int} (a b d : RegIdx) {s : State}
    (h : ¬ inWordRange (f (sint (s.reg a)) (sint (s.reg b)))) :
    exactArith f (regByte a) (regByte b) (regByte d) s = .next (s.raiseFatal .arithOverflow) :=
  exactArith_eq_next.2 (.inl ⟨a, b, d, rfl, rfl, rfl, .inr ⟨h, rfl⟩⟩)

theorem addToReg_of_not_inWordRange {k : Int} (r : RegIdx) (p2 p3 : Byte) {s : State}
    (h : ¬ inWordRange (sint (s.reg r) + k)) :
    addToReg k (regByte r) (some p2) (some p3) s = .next (s.raiseFatal .arithOverflow) :=
  addToReg_eq_next.2 (.inl ⟨r, rfl, rfl, rfl, .inr ⟨h, rfl⟩⟩)

theorem not_inWordRange_of_gt {n : Int} (h : 2 ^ 31 - 1 < n) : ¬ inWordRange n := by
  rintro ⟨_, hhi⟩
  omega

theorem not_inWordRange_of_lt {n : Int} (h : n < -2 ^ 31) : ¬ inWordRange n := by
  rintro ⟨hlo, _⟩
  omega

/-- Settles O32: a result outside the range commits nothing; one more or one less than an end of the range is outside. -/
theorem overflowIsFatal : Obligations.OverflowIsFatal := by
  unfold Obligations.OverflowIsFatal
  intro a b d p2 p3 s
  refine ⟨fun h => exactArith_of_not_inWordRange a b d h, fun h => exactArith_of_not_inWordRange a b d h,
    fun h => exactArith_of_not_inWordRange a b d h, fun h => ?_, fun h => ?_⟩
  · exact addToReg_of_not_inWordRange a p2 p3 (not_inWordRange_of_gt (by simp only [sint, State.reg]; omega))
  · exact addToReg_of_not_inWordRange a p2 p3 (not_inWordRange_of_lt (by simp only [sint, State.reg]; omega))

/-! ### Division -/

/-- -2^31 / -1 is the one quotient of two words that no word holds (R62). -/
theorem inWordRange_tdiv {n m : Int} (hn : inWordRange n) (h : ¬ (n = -2 ^ 31 ∧ m = -1)) : inWordRange (n.tdiv m) := by
  obtain ⟨hlo, hhi⟩ := hn
  by_cases hone : m.natAbs = 1
  · rcases Int.natAbs_eq_iff.1 hone with rfl | rfl
    · simpa using ⟨hlo, hhi⟩
    · simp only [Nat.cast_one, Int.tdiv_neg, Int.tdiv_one]
      exact ⟨by omega, by omega⟩
  · have hhalf : n.natAbs / m.natAbs ≤ 2 ^ 30 := by
      rcases Nat.eq_zero_or_pos m.natAbs with hzero | hpos
      · simp [hzero]
      · exact Nat.div_le_of_le_mul (by omega)
    have habs : (n.tdiv m).natAbs = n.natAbs / m.natAbs := Int.natAbs_tdiv n m
    exact ⟨by omega, by omega⟩

/-- The remainder is smaller than the divisor (R61). -/
theorem natAbs_tmod_lt (n : Int) {m : Int} (h0 : m ≠ 0) : (n.tmod m).natAbs < m.natAbs := by
  rw [Int.natAbs_tmod]
  exact Nat.mod_lt _ (Int.natAbs_pos.2 h0)

theorem inWordRange_tmod (n : Int) {m : Int} (hm : inWordRange m) (h0 : m ≠ 0) : inWordRange (n.tmod m) := by
  have hlt := natAbs_tmod_lt n h0
  obtain ⟨hlo, hhi⟩ := hm
  exact ⟨by omega, by omega⟩

/-- The remainder is zero or has the sign of the dividend (R61). -/
theorem tmod_sign (n m : Int) : n.tmod m = 0 ∨ (0 < n.tmod m ∧ 0 < n) ∨ (n.tmod m < 0 ∧ n < 0) := by
  rcases Int.lt_trichotomy n 0 with hneg | rfl | hpos
  · have hr := Int.tmod_nonneg m (show 0 ≤ -n by omega)
    rw [Int.neg_tmod] at hr
    omega
  · exact .inl (Int.zero_tmod m)
  · have hr := Int.tmod_nonneg m (show 0 ≤ n by omega)
    omega

/-- Where neither of DIV's fatal conditions holds, it divides, and what it writes has the properties of R61. -/
theorem divide_answers {n m : Int} (hn : inWordRange n) (hm : inWordRange m) (h0 : m ≠ 0)
    (h : ¬ (n = -2 ^ 31 ∧ m = -1)) :
    ∃ q r : Word, n = sint q * m + sint r ∧ (sint r).natAbs < m.natAbs ∧
      (sint r = 0 ∨ (0 < sint r ∧ 0 < n) ∨ (sint r < 0 ∧ n < 0)) ∧ divide n m = .ok (q, r) := by
  have hq := inWordRange_tdiv hn h
  have hrem : n - n.tdiv m * m = n.tmod m := by rw [Int.tmod_def, Int.mul_comm]
  refine ⟨wordOf (n.tdiv m), wordOf (n.tmod m), ?_⟩
  rw [sint_wordOf hq, sint_wordOf (inWordRange_tmod n hm h0)]
  exact ⟨(Int.tdiv_mul_add_tmod n m).symm, natAbs_tmod_lt n h0, tmod_sign n m,
    divide_eq_ok.2 ⟨h0, hq, by rw [hrem]⟩⟩

/-- Settles O33: DIV writes what its rule divides. -/
theorem divWritesQuotientAndRemainder : Obligations.DivWritesQuotientAndRemainder := by
  unfold Obligations.DivWritesQuotientAndRemainder
  intro a b d s h0 hover
  obtain ⟨q, r, heq, hlt, hsign, hdiv⟩ :=
    divide_answers (sint_inWordRange (s.reg a)) (sint_inWordRange (s.reg b)) h0 hover
  exact ⟨q, r, heq, hlt, hsign, (Effect.div a b d s q r hdiv).exec_eq⟩

theorem execDiv_of_divide_error {c : FaultCause} (a b d : RegIdx) {s : State}
    (h : divide (sint (s.reg a)) (sint (s.reg b)) = .error c) :
    execDiv (regByte a) (regByte b) (regByte d) s = .next (s.raiseFatal c) :=
  execDiv_eq_next.2 (.inl ⟨a, b, d, rfl, rfl, rfl, .inr ⟨c, h, rfl⟩⟩)

/-- Settles O34: the two fatal conditions of a division. -/
theorem divFaultsAsTheRuleSays : Obligations.DivFaultsAsTheRuleSays := by
  unfold Obligations.DivFaultsAsTheRuleSays
  refine fun a b d s => ⟨fun h0 => ?_, fun hn hm => ?_⟩
  · exact execDiv_of_divide_error a b d (divide_eq_error.2 (.inl ⟨h0, rfl⟩))
  · refine execDiv_of_divide_error a b d (divide_eq_error.2 (.inr ?_))
    rw [show sint (s.reg a) = -2 ^ 31 from hn, show sint (s.reg b) = -1 from hm]
    exact ⟨by decide, not_inWordRange_of_gt (by decide), rfl⟩

/-! ### Jumps -/

theorem execJmp_of_negative (r : RegIdx) (p2 p3 : OperandByte) {s : State} (h : sint (s.reg r) < 0) :
    execJmp (regByte r) p2 p3 s = .next (s.raiseFatal .negativeJumpOperand) :=
  (execJmp_eq_next (p2 := p2) (p3 := p3)).2 (.inl ⟨r, rfl, .inr ⟨h, rfl⟩⟩)

theorem relativeJump_of_negative (target : Word → Nat → Except FaultCause Word) (r : RegIdx) {s : State}
    (h : sint (s.reg r) < 0) : relativeJump target (regByte r) s = .next (s.raiseFatal .negativeJumpOperand) :=
  relativeJump_eq_next.2 (.inl ⟨r, rfl, .inr (.inr ⟨h, rfl⟩)⟩)

theorem relativeJump_of_target_error {target : Word → Nat → Except FaultCause Word} {c : FaultCause} (r : RegIdx)
    {s : State} (h0 : 0 ≤ sint (s.reg r)) (hc : target s.pc (sint (s.reg r)).toNat = .error c) :
    relativeJump target (regByte r) s = .next (s.raiseFatal c) :=
  relativeJump_eq_next.2 (.inl ⟨r, rfl, .inr (.inl ⟨h0, c, hc, rfl⟩)⟩)

theorem conditionalJump_of_negative {taken : Bool} (htaken : taken = true) (r : RegIdx) (p2 p3 : OperandByte)
    {s : State} (h : sint (s.reg r) < 0) :
    conditionalJump taken (regByte r) p2 p3 s = .next (s.raiseFatal .negativeJumpOperand) :=
  conditionalJump_eq_next.2 (.inl ⟨r, rfl, .inr (.inl ⟨htaken, h, rfl⟩)⟩)

theorem conditionalJump_of_missing {taken : Bool} (htaken : taken = false) (r : RegIdx) {p2 p3 : OperandByte}
    (s : State) (h : p2 = none ∨ p3 = none) :
    conditionalJump taken (regByte r) p2 p3 s = .next (s.raiseFatal .operandOutOfBounds) :=
  conditionalJump_eq_next.2 (.inl ⟨r, rfl, .inr (.inr (.inr ⟨htaken, h, rfl⟩))⟩)

/-- Settles O35: the effects of the three jumps, whose targets are computed without a wrap. -/
theorem unconditionalJumpsReachTheirTargets : Obligations.UnconditionalJumpsReachTheirTargets := by
  unfold Obligations.UnconditionalJumpsReachTheirTargets
  intro r p2 p3 s h0
  have hv : ((sint (s.reg r)).toNat : Int) = s.x[r.val].toInt := Int.toNat_of_nonneg h0
  refine ⟨(Effect.jmp r p2 p3 s h0).exec_eq, fun hle => ?_, fun hle hpc => ?_⟩
  · refine ⟨_, ?_, (Effect.jmpf r p2 p3 s _ h0 (forwardTarget_eq_ok.2 ⟨by omega, rfl⟩)).exec_eq⟩
    rw [BitVec.toNat_ofNat, Nat.mod_eq_of_lt (by omega)]
    omega
  · refine ⟨_, ?_, (Effect.jmpb r p2 p3 s _ h0 (backwardTarget_eq_ok.2 ⟨by omega, rfl⟩)).exec_eq⟩
    rw [BitVec.toNat_ofNat, Nat.mod_eq_of_lt (by omega)]
    omega

/-- Settles O36: a target that does not fit the PC is an error of the target's own computation. -/
theorem relativeJumpsNeverWrap : Obligations.RelativeJumpsNeverWrap := by
  unfold Obligations.RelativeJumpsNeverWrap
  intro r p2 p3 s h0
  have hv : ((sint (s.reg r)).toNat : Int) = s.x[r.val].toInt := Int.toNat_of_nonneg h0
  exact ⟨fun hgt => relativeJump_of_target_error r h0 (forwardTarget_eq_error.2 ⟨by omega, rfl⟩),
    fun hgt => relativeJump_of_target_error r h0 (backwardTarget_eq_error.2 ⟨by omega, rfl⟩)⟩

/-- Settles O37: a jump that is taken examines the value, one that is not only consumes its padding. -/
theorem negativeJumpOperandsAreFatal : Obligations.NegativeJumpOperandsAreFatal := by
  unfold Obligations.NegativeJumpOperandsAreFatal
  intro r p2 p3 s hneg
  refine ⟨execJmp_of_negative r p2 p3 hneg, relativeJump_of_negative forwardTarget r hneg,
    relativeJump_of_negative backwardTarget r hneg, fun hset => conditionalJump_of_negative hset r p2 p3 hneg,
    fun hclear => conditionalJump_of_negative (by simp [hclear]) r p2 p3 hneg, ?_⟩
  rintro v2 v3 rfl rfl
  exact ⟨fun hclear => (Effect.jeqUntaken r v2 v3 s hclear).exec_eq,
    fun hset => (Effect.jneqUntaken r v2 v3 s hset).exec_eq⟩

/-- Settles O38: JEQ and JNEQ, taken, untaken, and untaken with padding missing. -/
theorem conditionalJumpsFollowTheFlag : Obligations.ConditionalJumpsFollowTheFlag := by
  unfold Obligations.ConditionalJumpsFollowTheFlag
  intro r p2 p3 s
  refine ⟨fun hset h0 => (Effect.jeqTaken r p2 p3 s hset h0).exec_eq,
    fun hclear h0 => (Effect.jneqTaken r p2 p3 s hclear h0).exec_eq,
    fun hclear h2 h3 => ?_, fun hset h2 h3 => ?_,
    fun hmissing => ⟨fun hclear => conditionalJump_of_missing hclear r s hmissing,
      fun hset => conditionalJump_of_missing (by simp [hset]) r s hmissing⟩⟩
  · obtain ⟨v2, rfl⟩ := Option.isSome_iff_exists.1 h2
    obtain ⟨v3, rfl⟩ := Option.isSome_iff_exists.1 h3
    exact (Effect.jeqUntaken r v2 v3 s hclear).exec_eq
  · obtain ⟨v2, rfl⟩ := Option.isSome_iff_exists.1 h2
    obtain ⟨v3, rfl⟩ := Option.isSome_iff_exists.1 h3
    exact (Effect.jneqUntaken r v2 v3 s hset).exec_eq

/-! ### Comparisons, HLT and padding -/

/-- Settles O39: the effects of the six comparisons. -/
theorem comparisonsWriteTheirRelation : Obligations.ComparisonsWriteTheirRelation := by
  unfold Obligations.ComparisonsWriteTheirRelation
  intro a b p s
  exact ⟨(Effect.eq a b p s).exec_eq, (Effect.neq a b p s).exec_eq, (Effect.gt a b p s).exec_eq,
    (Effect.lt a b p s).exec_eq, (Effect.gtq a b p s).exec_eq, (Effect.ltq a b p s).exec_eq⟩

/-- Settles O40: the effect of HLT. -/
theorem hltHaltsPastItself : Obligations.HltHaltsPastItself := by
  unfold Obligations.HltHaltsPastItself
  exact fun p1 p2 p3 s => (Effect.hlt p1 p2 p3 s).exec_eq

/-- Settles O42: a padding byte that is there passes its check whatever it holds, and nothing else looks at it. -/
theorem paddingValuesAreIgnored : Obligations.PaddingValuesAreIgnored := by
  unfold Obligations.PaddingValuesAreIgnored
  intro a b p q p' q' v v' o1 o2 o1' o2' o3 o3' s
  exact ⟨rfl, rfl, rfl, rfl, rfl, rfl, rfl, rfl, rfl, rfl, rfl, rfl, rfl, rfl, rfl⟩

end Sys2Proof.Machine
end

section
/-!
PROOFS. The host's appends, whole runs, and the PC along them.
-/

namespace Sys2Proof.Machine

/-! ### Appends -/

theorem appendByteWithin_of_room {cap : Nat} {s : State} (h : s.len < cap) (b : Byte) :
    s.appendByteWithin cap b = (.ok, { s with prog := s.prog.append b }) :=
  if_neg (Nat.ne_of_lt h)

/-- Settles O43: full, the buffer refuses; below capacity it grows by the one cell. -/
theorem appendByteAppendsOrRefuses : Obligations.AppendByteAppendsOrRefuses := by
  unfold Obligations.AppendByteAppendsOrRefuses
  refine fun cap b s => ⟨fun hfull => if_pos hfull, fun hroom hwf => ?_⟩
  rw [appendByteWithin_of_room hroom]
  exact ⟨rfl, rfl, append_length s.prog b, read_append hwf b⟩

/-- Settles O44: no operation of the host takes a byte away, and beyond a last byte there is no operand byte. -/
theorem appendedBytesAreSeenAtOnce : Obligations.AppendedBytesAreSeenAtOnce := by
  unfold Obligations.AppendedBytesAreSeenAtOnce
  intro s b hinv hroom
  have happend : (s.appendByte b).2 = { s with prog := s.prog.append b } := by
    rw [State.appendByte, appendByteWithin_of_room hroom]
  have hread (a : Nat) : (s.appendByte b).2.prog.read a = if a = s.len then some b else s.prog.read a := by
    rw [happend]
    exact read_append hinv.progWf b a
  have hbeyond (k : Nat) : (s.appendByte b).2.prog.read (s.len + (k + 1)) = none := by
    rw [hread, if_neg (by omega)]
    exact (read_eq_none_iff hinv.progWf _).2 (by simp only [State.len]; omega)
  refine ⟨fun ops => programBufferIsAppendOnly.2.2 _ ops _ b (by rw [hread, if_pos rfl]), fun hrun hpc => ?_⟩
  have hpcAfter : (s.appendByte b).2.pc.toNat = s.len := by rw [(appendByte_sameButProg s b).pc, hpc]
  rw [stepFetchesTheBytesAtThePc _ b (appendByte_inv hinv b).progWf
    (by rw [(appendByte_sameButProg s b).runState, hrun]) (by rw [hpcAfter, hread, if_pos rfl]),
    hpcAfter, hbeyond 0, hbeyond 1, hbeyond 2]

/-! ### `run()` -/

theorem result_ne_running_iff {s : State} : s.result ≠ .running ↔ s.runState ≠ .running := by
  cases h : s.runState <;> simp [State.result, h]

/-- `run()` after one step: go on after Running, return anything else (R52). -/
theorem runFor_succ (n : Nat) (s : State) :
    s.runFor (n + 1) =
      if s.afterStep.result = .running then s.afterStep.runFor n else some (s.afterStep.result, s.afterStep) := by
  rw [State.runFor]
  cases h : s.afterStep.result <;> simp

theorem runFor_eq_some_iff (fuel : Nat) (s t : State) (r : StepResult) :
    s.runFor fuel = some (r, t) ↔
      ∃ k, k < fuel ∧ t = s.afterSteps (k + 1) ∧ r = t.result ∧ r ≠ .running ∧
        ∀ j, j < k → (s.afterSteps (j + 1)).result = .running := by
  induction fuel generalizing s with
  | zero => simp [State.runFor]
  | succ n ih =>
    rw [runFor_succ]
    split
    · next hrun =>
      rw [ih]
      constructor
      · rintro ⟨k, hk, ht, hr, hne, hbefore⟩
        refine ⟨k + 1, by omega, ht, hr, hne, fun j hj => ?_⟩
        cases j with
        | zero => exact hrun
        | succ j => exact hbefore j (by omega)
      · rintro ⟨k, hk, rfl, hr, hne, hbefore⟩
        cases k with
        | zero => exact absurd (hr.trans hrun) hne
        | succ k => exact ⟨k, by omega, rfl, hr, hne, fun j hj => hbefore (j + 1) (by omega)⟩
    · next hstop =>
      constructor
      · intro h
        obtain ⟨rfl, rfl⟩ := by simpa using h
        exact ⟨0, by omega, rfl, rfl, hstop, by simp⟩
      · rintro ⟨k, hk, rfl, rfl, hne, hbefore⟩
        cases k with
        | zero => rfl
        | succ k => exact absurd (hbefore 0 (by omega)) hstop

/-- Settles O45: by induction on the fuel, and by the no-op step of a stopped machine. -/
theorem runRepeatsStepUntilItStops : Obligations.RunRepeatsStepUntilItStops := by
  unfold Obligations.RunRepeatsStepUntilItStops
  refine ⟨runFor_eq_some_iff, fun fuel s hs => ?_⟩
  have hstep : s.afterStep = s := afterStep_of_step (step_of_not_running hs)
  rw [runFor_succ, hstep, if_neg (result_ne_running_iff.2 hs)]

/-! ### Jumps to themselves -/

/-- A running machine whose step leaves it as it is runs for ever (R99). -/
theorem never_ends_of_step_self {s : State} (hrun : s.runState = .running) (hstep : step s = .next s) (n : Nat) :
    s.afterSteps n = s ∧ s.runFor n = none := by
  have hself : s.afterStep = s := afterStep_of_step hstep
  induction n with
  | zero => exact ⟨rfl, rfl⟩
  | succ n ih =>
    refine ⟨by rw [State.afterSteps, hself, ih.1], ?_⟩
    rw [runFor_succ, hself, if_pos (result_of_running hrun), ih.2]

/-- Where a byte is fetched, the PC is below LEN (R34). -/
theorem pc_lt_len_of_read {s : State} {op : Byte} (hwf : s.prog.wf) (hop : s.prog.read s.pc.toNat = some op) :
    s.pc.toNat < s.len := by
  by_contra hge
  rw [(read_eq_none_iff hwf _).2 (by simpa using hge)] at hop
  cases hop

/-- Settles O46: the JMP's target, and the JMPB's, is the PC it stands at, so the step changes nothing. -/
theorem jumpsToThemselvesNeverEnd : Obligations.JumpsToThemselvesNeverEnd := by
  unfold Obligations.JumpsToThemselvesNeverEnd
  intro s r hwf hlen hrun hr hjump
  refine never_ends_of_step_self hrun ?_
  rcases hjump with ⟨hop, hx⟩ | ⟨hop, hx⟩
  · have hpc := pc_lt_len_of_read hwf hop
    have hreg : s.reg r = s.pc := hx
    have h0 : 0 ≤ sint (s.reg r) := by
      rw [hreg, sint, BitVec.toInt_eq_toNat_of_lt (by omega)]
      omega
    rw [stepFetchesTheBytesAtThePc s _ hwf hrun hop, hr]
    refine (Effect.jmp r _ _ s h0).exec_eq.trans ?_
    rw [hreg]
    rfl
  · have hreg : sint (s.reg r) = 2 := by
      rw [show s.reg r = 2 from hx]
      rfl
    have htarget : backwardTarget s.pc (sint (s.reg r)).toNat = .ok s.pc :=
      backwardTarget_eq_ok.2 ⟨by omega, by simp [hreg]⟩
    rw [stepFetchesTheBytesAtThePc s _ hwf hrun hop, hr]
    exact (Effect.jmpb r _ _ s _ (by omega) htarget).exec_eq

/-! ### The stride of four -/

theorem Effect.pc_of_not_jump {i : Instr} {s t : State} (h : Effect i s t) (hi : isJump i = false) :
    t.pc = s.pc + 4 := by
  cases h with
  | jmp | jmpf | jmpb | jeqTaken | jeqUntaken | jneqTaken | jneqUntaken => cases hi
  | _ => rfl

/-- A step from a PC below 2^31 that commits the effect of no jump moves the PC four up, with no wrap (R15, R17). -/
theorem toNat_pc_of_exec {i : Instr} {s t : State} (hi : isJump i = false) (hpc : s.pc.toNat < 2 ^ 31)
    (h : exec i s = .next t) (ht : t.runState ≠ .faulted) : t.pc.toNat = s.pc.toNat + 4 := by
  rcases exec_cases h with he | ⟨c, _, rfl⟩
  · rw [he.pc_of_not_jump hi, BitVec.toNat_add, Nat.mod_eq_of_lt (by simp; omega)]
    rfl
  · exact absurd rfl ht

theorem pc_lt_len_of_decode {s : State} {i : Instr} (hwf : s.prog.wf) (hi : decode s.fetchInstr = some i) :
    s.pc.toNat < s.len := by
  by_contra hge
  rw [(decode_fetchInstr_eq_none_iff hwf).2 (by omega)] at hi
  cases hi

/-- Settles O47: an instruction is only fetched below LEN, where the advance does not wrap. -/
theorem nonJumpStrideIsFour : Obligations.NonJumpStrideIsFour := by
  unfold Obligations.NonJumpStrideIsFour
  intro s t i hwf hlen hrun hi hjump hstep ht
  have hpc := pc_lt_len_of_decode hwf hi
  rw [step_of_running_decode hrun hi] at hstep
  exact toNat_pc_of_exec hjump (by omega) hstep ht

/-! ### Programs without jumps -/

theorem afterSteps_prog (n : Nat) (s : State) : (s.afterSteps n).prog = s.prog := by
  induction n generalizing s with
  | zero => rfl
  | succ n ih => rw [State.afterSteps, ih, afterStep_prog]

/-- A machine that runs after a step ran before it, and was not at the end of its program. -/
theorem running_of_afterStep_running {s : State} (h : s.afterStep.runState = .running) : s.runState = .running := by
  by_contra hs
  rw [afterStep_of_step (step_of_not_running hs)] at h
  exact hs h

/-- Whether an instruction is a jump is a matter of its opcode byte (R44). -/
theorem isJump_assemble (op : Byte) (b1 b2 b3 : OperandByte) :
    isJump (assemble op b1 b2 b3) = isJump (assemble op none none none) := by
  unfold assemble
  split <;> rfl

/-- No byte at the addresses the stride reaches is a jump's opcode. -/
def NoJumpOnStride (m : Memory) (pc0 : Nat) : Prop :=
  ∀ (k : Nat) (op : Byte), m.read (pc0 + 4 * k) = some op → isJump (assemble op none none none) = false

/-- One step on the stride, from a machine that runs: it ends on exhaustion with the PC unmoved, or it runs an
instruction and, unless that faults, leaves the PC four higher. -/
theorem pc_afterStep_on_stride {s : State} (hwf : s.prog.wf) (hlen : s.len ≤ 2 ^ 31) (hrun : s.runState = .running)
    (hjump : ∀ op, s.prog.read s.pc.toNat = some op → isJump (assemble op none none none) = false)
    (hfault : s.afterStep.runState ≠ .faulted) :
    (s.len ≤ s.pc.toNat ∧ s.afterStep = s.halt) ∨
      (s.pc.toNat < s.len ∧ s.afterStep.pc.toNat = s.pc.toNat + 4) := by
  cases hop : s.prog.read s.pc.toNat with
  | none =>
    have hend : s.len ≤ s.pc.toNat := (read_eq_none_iff hwf _).1 hop
    exact .inl ⟨hend, afterStep_of_step (step_of_exhausted hwf hrun hend)⟩
  | some op =>
    have hpc := pc_lt_len_of_read hwf hop
    have hexec := (stepFetchesTheBytesAtThePc s op hwf hrun hop).symm.trans (step_eq_next_afterStep s)
    exact .inr ⟨hpc, toNat_pc_of_exec ((isJump_assemble op _ _ _).trans (hjump op hop)) (by omega) hexec hfault⟩

theorem pc_afterSteps_of_noJumpOnStride {s : State} (hwf : s.prog.wf) (hlen : s.len ≤ 2 ^ 31)
    (hstride : NoJumpOnStride s.prog s.pc.toNat) (n : Nat) (hrun : (s.afterSteps n).runState = .running) :
    (s.afterSteps n).pc.toNat = s.pc.toNat + 4 * n := by
  induction n with
  | zero => rfl
  | succ n ih =>
    rw [afterSteps_succ] at hrun ⊢
    have hbefore := running_of_afterStep_running hrun
    have hpc := ih hbefore
    have hprog := afterSteps_prog n s
    rcases pc_afterStep_on_stride (by rwa [hprog]) (by rwa [State.len, hprog]) hbefore
      (by rw [hprog, hpc]; exact hstride n) (by simp [hrun]) with ⟨_, hhalt⟩ | ⟨_, hstep⟩
    · simp [hhalt] at hrun
    · omega

/-- Settles O48: by induction on the steps, each of them on the stride; the last is one more of them. -/
theorem nonJumpProgramsCountInstructions : Obligations.NonJumpProgramsCountInstructions := by
  unfold Obligations.NonJumpProgramsCountInstructions
  intro s n hwf hlen _ hstride hrun
  have hpc := pc_afterSteps_of_noJumpOnStride hwf hlen hstride n hrun
  refine ⟨hpc, fun hhalted => ?_⟩
  have hprog := afterSteps_prog n s
  have hlenAfter : (s.afterSteps n).len = s.len := by rw [State.len, hprog]
  rw [afterSteps_succ] at hhalted ⊢
  rcases pc_afterStep_on_stride (by rwa [hprog]) (by rwa [hlenAfter]) hrun
    (by rw [hprog, hpc]; exact hstride n) (by simp [hhalted]) with ⟨hend, hhalt⟩ | ⟨hinside, hstep⟩
  · rw [if_pos (by omega), hhalt, halt_pc, hpc]
  · rw [if_neg (by omega), hstep, hpc]
    omega

/-! ### The end of the buffer -/

/-- A word that is not negative is the same number signed and unsigned (R8). -/
theorem toNat_eq_sint {w : Word} (h : 0 ≤ sint w) : (w.toNat : Int) = sint w := by
  have hcond := BitVec.toInt_eq_toNat_cond w
  have hlt := w.isLt
  rw [sint] at h ⊢
  split at hcond <;> omega

/-- Only an opcode byte that the table assigns to no other row decodes to IGL (R45). -/
theorem assemble_ne_igl {op : Byte} (hop : op.toNat ≤ 17 ∨ op.toNat = 255) (b1 b2 b3 : OperandByte) (op' : Byte)
    (u1 u2 u3 : OperandByte) : assemble op b1 b2 b3 ≠ .igl op' u1 u2 u3 := by
  intro h
  have hsame : op' = op := by simpa only [h, opcodeByte] using opcodeByte_assemble op b1 b2 b3
  have hillegal := illegalOpcode_assemble op b1 b2 b3
  simp only [h, hsame, Instr.illegalOpcode, Bool.and_eq_true, decide_eq_true_eq] at hillegal
  omega

/-- Every instruction but IGL fetches its first operand byte before anything else (R41), so without it it faults. -/
theorem firstOperandFault_of_first_missing {i : Instr} (hi : ∀ op u1 u2 u3, i ≠ .igl op u1 u2 u3)
    (hmissing : i.operandBytes.1 = none) (eqf : Bool) :
    firstOperandFault (operandsFetched i eqf) = some .operandOutOfBounds := by
  cases i with
  | igl => exact absurd rfl (hi _ _ _ _)
  | jeq | jneq => cases hmissing; cases eqf <;> rfl
  | _ => cases hmissing; rfl

/-- Settles O49: a JMP beyond LEN leaves an exhausted machine, and a last byte that is an assigned opcode has no operand
byte to fetch. -/
theorem pcBeyondTheEndHaltsAndOperandBeyondTheEndFaults :
    Obligations.PcBeyondTheEndHaltsAndOperandBeyondTheEndFaults := by
  unfold Obligations.PcBeyondTheEndHaltsAndOperandBeyondTheEndFaults
  refine fun s hwf hrun => ⟨fun r p2 p3 t h0 hbeyond h => ?_, fun op hop hlast hassigned => ?_⟩
  · obtain rfl := Host.Outcome.next.inj ((Effect.jmp r p2 p3 s h0).exec_eq.symm.trans h)
    have hvalue : ((s.reg r).toNat : Int) = s.x[r.val].toInt := toNat_eq_sint h0
    have hend : s.len ≤ (s.reg r).toNat := by omega
    exact ⟨rfl, step_of_exhausted (s := s.setPc (s.reg r)) hwf hrun hend⟩
  · have hnone (k : Nat) : s.prog.read (s.pc.toNat + (k + 1)) = none :=
      (read_eq_none_iff hwf _).2 (by simp only [State.len] at hlast; omega)
    rw [stepFetchesTheBytesAtThePc s op hwf hrun hop, hnone 0, hnone 1, hnone 2]
    exact exec_of_operandFault
      (firstOperandFault_of_first_missing (assemble_ne_igl hassigned none none none) (by simp) s.eqf)

end Sys2Proof.Machine
end
